-- ==== Sys2Proof/Word.lean ====
section
/-! DEFINITION. The word types of the block (spec/00_scope.md R7 to R9). `+` and `*` of a `Word` wrap
modulo 2^64, `<<<` and `>>>` with a natural-number distance fill with zeros: the arithmetic of R9. -/

namespace Sys2Proof

/-- A 64-bit value: every register, operand and command word (R7). -/
abbrev Word := BitVec 64

/-- One byte of the input buffer (spec/10_state.md R28). -/
abbrev Byte := BitVec 8

end Sys2Proof
end

