-- ==== Sys2Proof/Machine/Constants.lean ====
section
/-! DEFINITION. The constants of the algorithm (spec/40_control.md R55) and the identification
(spec/10_state.md R26), copied digit for digit. UNVERIFIED (log entry 11): the spec's own literals are
unaudited (spec/91_not_in_source.md N2). -/

namespace Sys2Proof.Machine

def iv1 : Word := 0x9368e53c2f6af274
def iv2 : Word := 0x586dcd208f7cd3fd
def c1Init : Word := 0x87c37b91114253d5
def c2Init : Word := 0x4cf5ad432745937f
def ha1 : Word := 0x0000000052dce729
def ha2 : Word := 0x0000000038495ab5
def ca1 : Word := 0x000000007b7d159c
def ca2 : Word := 0x000000006bce6396
def fm1 : Word := 0xff51afd7ed558ccd
def fm2 : Word := 0xc4ceb9fe1a85ec53
def bmask : Word := 0x00000000FFFFFFFF

/-- "MURM3X64", the first character in the most significant byte (R26). -/
def idValue : Word := 0x4D55524D33583634

end Sys2Proof.Machine
end

