-- ==== Sys2Proof/Syntax.lean ====
section
/-! DEFINITION. The commands of the block, one constructor per row of spec/opcode_table.json
(spec/30_encoding.md R50). -/

namespace Sys2Proof

/-- A command. OFF and CNT are the unsigned numbers that R49 makes of the fields, used in exact
arithmetic; SEED is the 32-bit field, which INIT sign-extends. `Instr.wellFormed` bounds OFF and CNT. -/
inductive Instr where
  /-- R56. -/
  | nop
  /-- R57: IMM is SEED. -/
  | init (seed : BitVec 32)
  /-- R62. -/
  | ldk
  /-- R63. -/
  | kxor
  /-- R60: IMM is OFF. -/
  | rdblk (off : Nat)
  /-- R61: IMM is OFF, CNT the tail length. -/
  | tail (off cnt : Nat)
  /-- R68. -/
  | mix
  /-- R69: IMM is OFF. -/
  | bmix (off : Nat)
  /-- R70. -/
  | wmix
  /-- R73. -/
  | fin
deriving DecidableEq, Repr

/-- The mnemonic of R50's table. -/
def Instr.mnemonic : Instr → String
  | .nop => "NOP"
  | .init _ => "INIT"
  | .ldk => "LDK"
  | .kxor => "KXOR"
  | .rdblk _ => "RDBLK"
  | .tail _ _ => "TAIL"
  | .mix => "MIX"
  | .bmix _ => "BMIX"
  | .wmix => "WMIX"
  | .fin => "FIN"

end Sys2Proof
end

