-- ==== Sys2Proof/WellFormed.lean ====
section
/-! DEFINITION. Which commands a word can spell (spec/30_encoding.md R47, R49): OFF has 32 bits and
CNT has 4. Whether the bytes lie inside IBUF is a matter of the state, checked at issue (R52). -/

namespace Sys2Proof

/-- OFF is a number of 32 bits and CNT a number from 0 to 15 (R49). -/
def Instr.wellFormed : Instr → Bool
  | .nop => true
  | .init _ => true
  | .ldk => true
  | .kxor => true
  | .rdblk off => decide (off < 2 ^ 32)
  | .tail off cnt => decide (off < 2 ^ 32) && decide (cnt < 16)
  | .mix => true
  | .bmix off => decide (off < 2 ^ 32)
  | .wmix => true
  | .fin => true

end Sys2Proof
end

