-- ==== Sys2Proof/Decode.lean ====
section
/-! DEFINITION. The command word: its fields (spec/30_encoding.md R47), the decoder (R50, R51), the
encoder (R54), and R50's table of match and mask. -/

namespace Sys2Proof

/-- The four fields of a command word (R47). -/
structure Fields where
  /-- bits 63:32 -/
  imm : BitVec 32
  /-- bits 31:12 -/
  rsv : BitVec 20
  /-- bits 11:8 -/
  cnt : BitVec 4
  /-- bits 7:0 -/
  opc : BitVec 8
deriving DecidableEq, Repr

/-- The fields of a word (R47). -/
def fieldsOf (w : Word) : Fields :=
  { imm := w.extractLsb' 32 32, rsv := w.extractLsb' 12 20, cnt := w.extractLsb' 8 4
    opc := w.extractLsb' 0 8 }

/-- `(IMM << 32) | (RSV << 12) | (CNT << 8) | OPC` (R47). -/
def wordOf (f : Fields) : Word :=
  (f.imm.setWidth 64 <<< 32) ||| (f.rsv.setWidth 64 <<< 12) ||| (f.cnt.setWidth 64 <<< 8)
    ||| f.opc.setWidth 64

/-- Why a word spells no command (R51). -/
inductive DecodeError where
  /-- OPC is 0x0A or more: E_OPCODE. -/
  | opcode
  /-- OPC is defined, and a field that must be 0 is not: E_RSVD. -/
  | rsvd
deriving DecidableEq, Repr

/-- The command `i` if the fields it does not use are 0, else E_RSVD (R51). -/
def ifUnusedZero (unusedZero : Bool) (i : Instr) : Except DecodeError Instr :=
  if unusedZero then .ok i else .error .rsvd

/-- The command that a word spells (R50), or why it spells none (R51). -/
def decode (w : Word) : Except DecodeError Instr :=
  let f := fieldsOf w
  let rsv0 := f.rsv == 0
  let cnt0 := f.cnt == 0
  let imm0 := f.imm == 0
  match f.opc.toNat with
  | 0x00 => ifUnusedZero (rsv0 && cnt0 && imm0) .nop
  | 0x01 => ifUnusedZero (rsv0 && cnt0) (.init f.imm)
  | 0x02 => ifUnusedZero (rsv0 && cnt0 && imm0) .ldk
  | 0x03 => ifUnusedZero (rsv0 && cnt0 && imm0) .kxor
  | 0x04 => ifUnusedZero (rsv0 && cnt0) (.rdblk f.imm.toNat)
  | 0x05 => ifUnusedZero rsv0 (.tail f.imm.toNat f.cnt.toNat)
  | 0x06 => ifUnusedZero (rsv0 && cnt0 && imm0) .mix
  | 0x07 => ifUnusedZero (rsv0 && cnt0) (.bmix f.imm.toNat)
  | 0x08 => ifUnusedZero (rsv0 && cnt0 && imm0) .wmix
  | 0x09 => ifUnusedZero (rsv0 && cnt0 && imm0) .fin
  | _ => .error .opcode

/-- The fields of a command's word; every field the command does not use is 0 (R50). -/
def encodeFields : Instr → Fields
  | .nop => { imm := 0, rsv := 0, cnt := 0, opc := 0x00 }
  | .init seed => { imm := seed, rsv := 0, cnt := 0, opc := 0x01 }
  | .ldk => { imm := 0, rsv := 0, cnt := 0, opc := 0x02 }
  | .kxor => { imm := 0, rsv := 0, cnt := 0, opc := 0x03 }
  | .rdblk off => { imm := BitVec.ofNat 32 off, rsv := 0, cnt := 0, opc := 0x04 }
  | .tail off cnt => { imm := BitVec.ofNat 32 off, rsv := 0, cnt := BitVec.ofNat 4 cnt, opc := 0x05 }
  | .mix => { imm := 0, rsv := 0, cnt := 0, opc := 0x06 }
  | .bmix off => { imm := BitVec.ofNat 32 off, rsv := 0, cnt := 0, opc := 0x07 }
  | .wmix => { imm := 0, rsv := 0, cnt := 0, opc := 0x08 }
  | .fin => { imm := 0, rsv := 0, cnt := 0, opc := 0x09 }

/-- The word of a command (R47, R50). DESIGN CHOICE (log entry 16): a command that is not well-formed has no
word in the spec; its operands are cut to their fields here. -/
def encode (i : Instr) : Word := wordOf (encodeFields i)

/-- A row of R50's second table. -/
structure Row where
  mnemonic : String
  pattern : Word
  mask : Word
deriving DecidableEq, Repr

/-- "A word `v` spells command X when `v & mask(X) = match(X)`" (R50). -/
def Row.spells (r : Row) (v : Word) : Bool := (v &&& r.mask) == r.pattern

/-- R50's second table: the exact match and mask of each command. -/
def rows : List Row :=
  [ { mnemonic := "NOP", pattern := 0x0000000000000000, mask := 0xFFFFFFFFFFFFFFFF },
    { mnemonic := "INIT", pattern := 0x0000000000000001, mask := 0x00000000FFFFFFFF },
    { mnemonic := "LDK", pattern := 0x0000000000000002, mask := 0xFFFFFFFFFFFFFFFF },
    { mnemonic := "KXOR", pattern := 0x0000000000000003, mask := 0xFFFFFFFFFFFFFFFF },
    { mnemonic := "RDBLK", pattern := 0x0000000000000004, mask := 0x00000000FFFFFFFF },
    { mnemonic := "TAIL", pattern := 0x0000000000000005, mask := 0x00000000FFFFF0FF },
    { mnemonic := "MIX", pattern := 0x0000000000000006, mask := 0xFFFFFFFFFFFFFFFF },
    { mnemonic := "BMIX", pattern := 0x0000000000000007, mask := 0x00000000FFFFFFFF },
    { mnemonic := "WMIX", pattern := 0x0000000000000008, mask := 0xFFFFFFFFFFFFFFFF },
    { mnemonic := "FIN", pattern := 0x0000000000000009, mask := 0xFFFFFFFFFFFFFFFF } ]

/-- The word whose low `nbits` bits are those of `w` and whose other bits are 0. A command is one
64-bit word (R48), so bit n of the opcode table is bit n of the word. -/
def tableWord (nbits w : Nat) : Word := BitVec.ofNat 64 (w % 2 ^ nbits)

/-- The command the decoder reads from a word numbered as spec/opcode_table.json numbers it. -/
def decodeTableWord (nbits w : Nat) : Option Instr :=
  match decode (tableWord nbits w) with
  | .ok i => some i
  | .error _ => none

end Sys2Proof
end

