-- ==== Sys2Proof/Machine/BusTypes.lean ====
section
/-! DEFINITION. What passes between the block and the outside: bus accesses and responses
(spec/20_memory.md R31, R32), and the events that make the block's state change (R32, R43;
spec/70_reset_and_hazards.md R102). -/

namespace Sys2Proof

/-- A host access (R32): the 13-bit offset, the width in bytes, and the data of a write. A width that
is not 1, 2, 4 or 8 can be named, and gets a bus error (R37; spec/60_exceptions.md R92). -/
inductive Access where
  | read (offset : BitVec 13) (width : Nat)
  | write (offset : BitVec 13) (width : Nat) (value : Word)
deriving DecidableEq, Repr

/-- The block's response to an access (R31, R32). -/
inductive Response where
  /-- `Ok` to a write. -/
  | written
  /-- `Ok(v)` to a read; bits above the access's width are 0 (R33). -/
  | data (v : Word)
  /-- `BusError`. -/
  | busError
deriving DecidableEq, Repr

/-- One indivisible event of the total order of R43. -/
inductive Event where
  /-- The host performs an access. -/
  | access (a : Access)
  /-- The block's `Complete` step fires if it is enabled, that is while BUSY = 1. -/
  | complete
  /-- `rst_n` is held low (R102); the argument is the access under way, if there is one. -/
  | reset (underWay : Option Access)
deriving DecidableEq, Repr

/-- A request as the port carries it (R31). -/
structure PortRequest where
  /-- `req_write` -/
  write : Bool
  /-- `req_addr` -/
  addr : BitVec 13
  /-- `req_size` -/
  size : BitVec 2
  /-- `req_wdata` -/
  wdata : Word
deriving DecidableEq, Repr

/-- The registers of the map of R34. -/
inductive Reg where
  | id | cfg | status | cmd | opa | opb | h1 | h2 | k1 | k2 | c1 | c2 | out32
deriving DecidableEq, Repr

end Sys2Proof
end

