-- ==== Sys2Proof/Config.lean ====
section
/-! DEFINITION. What an instance of the block fixes (spec/00_scope.md R6) and the values the spec
leaves open (spec/93_implementation_defined.md I9 to I11). An open value is an opaque constant, so
no proof can see what it is. -/

namespace Sys2Proof

/-- The parameters of an instance (R6). They never change while the block runs (spec/10_state.md R25).
LATENCY is not among them: no rule depends on it (spec/70_reset_and_hazards.md R109). -/
structure Params where
  /-- MASK32_QUIRK -/
  mask32Quirk : Bool
  /-- ROT_QUIRK -/
  rotQuirk : Bool
  /-- IBUF_BYTES -/
  ibufBytes : Nat
  /-- BASE -/
  base : Nat
deriving DecidableEq, Repr

/-- The values this hardware takes (R6). DESIGN CHOICE (log entry 12): BASE is the platform's and the
spec gives it no value; 0 here. -/
def Params.reference : Params :=
  { mask32Quirk := true, rotQuirk := true, ibufBytes := 4096, base := 0 }

/-- The values R6 allows. -/
abbrev Params.wf (p : Params) : Prop :=
  p.ibufBytes % 16 = 0 ∧ 16 ≤ p.ibufBytes ∧ p.ibufBytes ≤ 4096 ∧ p.base % 0x2000 = 0

/-- I9: what IBUF byte `index` holds after the `epoch`-th reset until it is written. -/
opaque Config.ibufAtReset (epoch index : Nat) : Byte

/-- I10: what a read of a hash register returns while BUSY = 1, for the `draw`-th such read. -/
opaque Config.readWhileBusy (draw : Nat) : Word

/-- I11: whether an access under way when reset arrives took effect before the reset. -/
opaque Config.landsAtReset (draw : Nat) : Bool

/-- I11: the response, if any, to an access under way when reset arrives. -/
opaque Config.responseAtReset (draw : Nat) : Option Response

end Sys2Proof
end

