-- ==== Sys2Proof/Machine/State.lean ====
section
/-! DEFINITION. All the state of the block (spec/10_state.md R15 to R30) as plain data, the reasons a
step can stop, and the state after reset (R30). -/

namespace Sys2Proof.Machine

/-- No fault exists: the block has no trap, and an error is a rejection recorded in STATUS or a bus
error response, after both of which the machine goes on (spec/60_exceptions.md R85, R94). -/
inductive Fault
deriving DecidableEq, Repr

/-- Why a step has no meaning. -/
inductive Refusal where
  /-- Raised by `exec` alone, for a command that has no meaning yet; no arm raises it now. Safe. -/
  | notModelled (mnemonic : String)
deriving DecidableEq, Repr

/-- The hash state, the source's record of six 64-bit registers (R15). -/
structure HashState where
  h1 : Word
  h2 : Word
  k1 : Word
  k2 : Word
  c1 : Word
  c2 : Word
deriving DecidableEq, Repr

/-- The hidden in-flight record (R29). -/
structure InFlight where
  /-- LCMD -/
  lcmd : Word
  /-- LOPA -/
  lopa : Word
  /-- LOPB -/
  lopb : Word
deriving DecidableEq, Repr

/-- The block. The fields from `inbox` on are the model's own (log entries 2, 3, 4 and 8). -/
structure State where
  /-- MASK32_QUIRK, ROT_QUIRK, IBUF_BYTES and BASE (spec/00_scope.md R6); nothing writes them. -/
  params : Params
  /-- H1, H2, K1, K2, C1, C2 (R15). -/
  hash : HashState
  /-- OPA (R20). -/
  opa : Word
  /-- OPB (R20). -/
  opb : Word
  /-- The record of the command in flight (R29). BUSY = 1 exactly while it exists (R22). -/
  inflight : Option InFlight
  /-- STATUS.ERR (R22). -/
  err : Bool
  /-- STATUS.ERRCODE (R22). -/
  errcode : BitVec 8
  /-- STATUS.DONE (R22). -/
  done : Bool
  /-- STATUS.INITD (R22). -/
  initd : Bool
  /-- IBUF (R28): the bytes written since reset, by index, indices rising. -/
  ibuf : List Host.Cell
  /-- The coming events, the first to happen first. -/
  inbox : List Event
  /-- The responses given so far, oldest first. -/
  outbox : List Response
  /-- How many resets there have been before the present run. -/
  epoch : Nat
  /-- How many free values have been drawn. -/
  draws : Nat
deriving DecidableEq, Repr

/-- The state after reset (R30), with the parameters this hardware takes. -/
def State.reset : State :=
  { params := Params.reference
    hash := { h1 := 0, h2 := 0, k1 := 0, k2 := 0, c1 := 0, c2 := 0 }
    opa := 0
    opb := 0
    inflight := none
    err := false
    errcode := 0
    done := false
    initd := false
    ibuf := []
    inbox := []
    outbox := []
    epoch := 0
    draws := 0 }

end Sys2Proof.Machine
end

