-- ==== Sys2Proof/Machine/Flags.lean ====
section
/-! DEFINITION. STATUS: its fields, the error codes, and what writes DONE (spec/10_state.md R22, R24;
spec/60_exceptions.md R86). -/

namespace Sys2Proof.Machine

/-- The command errors (spec/60_exceptions.md R86), in the order of the checks (R91). -/
inductive CmdError where
  | busy | opcode | rsvd | noInit | range
deriving DecidableEq, Repr

/-- The codes that ERRCODE holds (spec/60_exceptions.md R86). -/
def CmdError.code : CmdError → BitVec 8
  | .busy => 0x01
  | .opcode => 0x02
  | .rsvd => 0x03
  | .noInit => 0x04
  | .range => 0x05

/-- A word that spells no command is rejected with E_OPCODE or E_RSVD (spec/30_encoding.md R51). -/
def CmdError.ofDecode : DecodeError → CmdError
  | .opcode => .opcode
  | .rsvd => .rsvd

/-- STATUS.BUSY: a command is in flight (spec/10_state.md R22, R29). -/
def State.busy (s : State) : Bool := s.inflight.isSome

/-- The value a read of STATUS returns: BUSY, ERR, DONE, INITD and ERRCODE at bits 0, 1, 2, 3 and
15:8, the other bits 0 (spec/10_state.md R22). -/
def State.statusWord (s : State) : Word :=
  (BitVec.ofBool s.busy).setWidth 64 ||| ((BitVec.ofBool s.err).setWidth 64 <<< 1)
    ||| ((BitVec.ofBool s.done).setWidth 64 <<< 2) ||| ((BitVec.ofBool s.initd).setWidth 64 <<< 3)
    ||| (s.errcode.setWidth 64 <<< 8)

/-- DONE after a command completes, from DONE before it (spec/10_state.md R24). -/
def doneAfter (i : Instr) (old : Bool) : Bool :=
  match i with
  | .nop => old
  | .init _ => false
  | .ldk => false
  | .kxor => false
  | .rdblk _ => false
  | .tail _ _ => false
  | .mix => false
  | .bmix _ => false
  | .wmix => false
  | .fin => true

/-- INITD after a command completes: INIT sets it and nothing but reset clears it
(spec/30_encoding.md R53; spec/60_exceptions.md R88). -/
def initdAfter (i : Instr) (old : Bool) : Bool :=
  match i with
  | .init _ => true
  | .nop => old
  | .ldk => old
  | .kxor => old
  | .rdblk _ => old
  | .tail _ _ => old
  | .mix => old
  | .bmix _ => old
  | .wmix => old
  | .fin => old

end Sys2Proof.Machine
end

