-- ==== Sys2Proof/Machine/Ops.lean ====
section
/-! DEFINITION. The named operations on the input buffer and on STATUS: reading and writing IBUF
(spec/10_state.md R28; spec/20_memory.md R33), rejecting a command and clearing the error
(spec/60_exceptions.md R90; spec/10_state.md R23), and reset (spec/70_reset_and_hazards.md R102).
The block has no trap (spec/60_exceptions.md R94): a rejection is its one way of taking an error, and a
STATUS write with bit 1 set is the way back. -/

namespace Sys2Proof.Machine

/-- The canonical form: indices strictly rising. An index that is not listed holds no written byte, so
no entry equals what an unlisted index reads as (log entry 2). -/
abbrev Memory.wf (m : List Host.Cell) : Prop := m.Pairwise fun x y => x.1 < y.1

/-- The byte written at an index, or nothing where none has been written. -/
def Memory.get? : List Host.Cell → Nat → Option Byte
  | [], _ => none
  | (j, b) :: m, i => if i = j then some b else Memory.get? m i

/-- Writes one byte. -/
def Memory.set : List Host.Cell → Nat → Byte → List Host.Cell
  | [], i, v => [(i, v)]
  | (j, b) :: m, i, v =>
    if i < j then (i, v) :: (j, b) :: m
    else if i = j then (i, v) :: m
    else (j, b) :: Memory.set m i v

/-- `IBUF[i]` (spec/00_scope.md R11). A byte that has not been written since reset is a free value,
drawn once at that reset (spec/10_state.md R30; spec/93_implementation_defined.md I9). -/
def State.ibufByte (s : State) (i : Nat) : Byte :=
  match Memory.get? s.ibuf i with
  | some b => b
  | none => Config.ibufAtReset s.epoch i

/-- `IBUF[i] <- b`. -/
def State.setIbufByte (s : State) (i : Nat) (b : Byte) : State :=
  { s with ibuf := Memory.set s.ibuf i b }

/-- The `width` bytes from `IBUF[i]` on, byte k in bits 8k+7:8k, the bits above 0
(spec/20_memory.md R33). -/
def State.readLanes (s : State) (i : Nat) : Nat → Word
  | 0 => 0
  | width + 1 => (s.ibufByte i).setWidth 64 ||| (s.readLanes (i + 1) width <<< 8)

/-- Stores the low `width` bytes of `v` from `IBUF[i]` on, bits 8k+7:8k at `IBUF[i + k]`
(spec/20_memory.md R33). -/
def State.writeLanes (s : State) (i : Nat) (v : Word) : Nat → State
  | 0 => s
  | width + 1 => (s.setIbufByte i (v.setWidth 8)).writeLanes (i + 1) (v >>> 8) width

/-- Records a rejection: the first code since ERR was last cleared is kept, and nothing else changes
(spec/60_exceptions.md R90). -/
def State.reject (s : State) (e : CmdError) : State :=
  if s.err then s else { s with err := true, errcode := e.code }

/-- A write to STATUS: bit 1 of the data clears ERR and ERRCODE, and every other bit is ignored
(spec/10_state.md R23). -/
def State.writeStatus (s : State) (v : Word) : State :=
  if v.getLsbD 1 then { s with err := false, errcode := 0 } else s

/-- Reset (spec/70_reset_and_hazards.md R102): the values of spec/10_state.md R30, the command in flight
abandoned, every IBUF byte drawn anew. What lies outside the block stays: its parameters, the coming
events and the responses already given. -/
def State.afterReset (s : State) : State :=
  { State.reset with
    params := s.params
    inbox := s.inbox
    outbox := s.outbox
    epoch := s.epoch + 1
    draws := s.draws }

end Sys2Proof.Machine
end

