-- ==== Sys2Proof/Machine/Operands.lean ====
section
/-! DEFINITION. Every operand form: SEED, OFF, CNT, LOPA and LOPB (spec/30_encoding.md R49, R53), the
READER unit's packers (spec/41_operand_load.md R58, R61), and the checks that depend on the operands
and the state (R59; spec/60_exceptions.md R88). -/

namespace Sys2Proof.Machine

/-- The operands a command runs with: the copies LCMD, LOPA and LOPB that acceptance took
(spec/30_encoding.md R53). Where no command is in flight, the copies acceptance would take now
(log entry 5). -/
def State.latched (s : State) (i : Instr) : InFlight :=
  match s.inflight with
  | some f => f
  | none => { lcmd := encode i, lopa := s.opa, lopb := s.opb }

/-- `sext_64(SEED)` (spec/30_encoding.md R49; spec/00_scope.md R10). -/
def seedOperand (seed : BitVec 32) : Word := seed.signExtend 64

/-- Packs bytes, the first into the most significant place (spec/41_operand_load.md R58). -/
def packBigEndian (bytes : List Byte) : Word :=
  bytes.foldl (fun w b => (w <<< 8) ||| b.setWidth 64) 0

/-- The word of an 8-byte window (spec/41_operand_load.md R58): packed big-endian, and only the low 32
bits kept when MASK32_QUIRK = 1. -/
def blockWord (mask32Quirk : Bool) (bytes : List Byte) : Word :=
  if mask32Quirk then packBigEndian bytes &&& bmask else packBigEndian bytes

/-- `getblock(o)` (spec/41_operand_load.md R58), over `IBUF[o]` to `IBUF[o+7]`. -/
def State.getblock (s : State) (o : Nat) : Word :=
  blockWord s.params.mask32Quirk ((List.range 8).map fun k => s.ibufByte (o + k))

/-- XORs tail byte `j` into its place of K1 or K2 (spec/41_operand_load.md R61). -/
def xorTailByte (j : Nat) (b : Byte) (h : HashState) : HashState :=
  if 8 ≤ j then { h with k2 := h.k2 ^^^ (b.setWidth 64 <<< (8 * (j - 8))) }
  else { h with k1 := h.k1 ^^^ (b.setWidth 64 <<< (8 * j)) }

/-- The loop of R61, `for j from CNT-1 down to 0`: the tail bytes XORed into K1 and K2. -/
def xorTail (tailByte : Nat → Byte) : Nat → HashState → HashState
  | 0, h => h
  | j + 1, h => xorTail tailByte j (xorTailByte j (tailByte j) h)

/-- Whether the command needs INITD = 1: every command but NOP and INIT (spec/60_exceptions.md R88). -/
def needsInit : Instr → Bool
  | .nop => false
  | .init _ => false
  | .ldk => true
  | .kxor => true
  | .rdblk _ => true
  | .tail _ _ => true
  | .mix => true
  | .bmix _ => true
  | .wmix => true
  | .fin => true

/-- How many bytes from IBUF index 0 on must exist for the command: one more than the last index it
reads, in exact arithmetic, and OFF itself for TAIL with CNT = 0 (spec/41_operand_load.md R59). -/
def ibufReach : Instr → Nat
  | .nop => 0
  | .init _ => 0
  | .ldk => 0
  | .kxor => 0
  | .rdblk off => off + 16
  | .tail off cnt => off + cnt
  | .mix => 0
  | .bmix off => off + 16
  | .wmix => 0
  | .fin => 0

/-- The last two checks of spec/30_encoding.md R52, E_NOINIT and then E_RANGE: the first that fails. -/
def State.commandError (s : State) (i : Instr) : Option CmdError :=
  if !s.initd && needsInit i then some .noInit
  else if s.params.ibufBytes < ibufReach i then some .range
  else none

end Sys2Proof.Machine
end

