-- ==== Sys2Proof/Machine/Lifecycle.lean ====
section
/-! DEFINITION. The life of a command: issue, the checks, acceptance, completion
(spec/30_encoding.md R52, R53). -/

namespace Sys2Proof.Machine

/-- The first check of R52 that the word fails, or nothing where the command is accepted. -/
def State.issueError (s : State) (v : Word) : Option CmdError :=
  if s.busy then some .busy
  else match decode v with
    | .error e => some (CmdError.ofDecode e)
    | .ok i => s.commandError i

/-- `LCMD <- v; LOPA <- OPA; LOPB <- OPB; BUSY <- 1`, and nothing else (R53). -/
def State.accept (s : State) (v : Word) : State :=
  { s with inflight := some { lcmd := v, lopa := s.opa, lopb := s.opb } }

/-- The host writes the word to CMD (R52, R53): it is accepted or rejected. A command in flight goes on
(spec/60_exceptions.md R87). -/
def State.issue (s : State) (v : Word) : State :=
  match s.issueError v with
  | some e => s.reject e
  | none => s.accept v

/-- `BUSY <- 0`, and the in-flight record is discarded (R53). -/
def State.retire (s : State) : State := { s with inflight := none }

/-- Runs a command to its completion (R53): the effect its rule gives on the hash state, with the
latched operands; then DONE and INITD; then BUSY <- 0. For a command in flight this is the block's
`Complete` step; from an idle block it is issue, acceptance and completion in one (R12; log entry 5). A
command that fails a check of its own changes nothing but ERR and ERRCODE (R52, R90); for an accepted
command no check fails, since none of what the checks read changes while it is in flight (R53). -/
def State.runCommand (s : State) (i : Instr) (effect : InFlight → HashState → HashState) :
    Host.Outcome State Fault Refusal :=
  match s.commandError i with
  | some e => .next (s.reject e).retire
  | none =>
    .next { s with
      hash := effect (s.latched i) s.hash
      done := doneAfter i s.done
      initd := initdAfter i s.initd
      inflight := none }

end Sys2Proof.Machine
end

