-- ==== Sys2Proof/Machine/Bus.lean ====
section
/-! DEFINITION. The bus: the address map, reads and writes of the two regions, and the port's codes
(spec/20_memory.md R31 to R37; spec/60_exceptions.md R92; spec/70_reset_and_hazards.md R106, R107). -/

namespace Sys2Proof.Machine

/-- The offset of a register (R34). -/
def regOffset : Reg → BitVec 13
  | .id => 0x000
  | .cfg => 0x008
  | .status => 0x010
  | .cmd => 0x018
  | .opa => 0x020
  | .opb => 0x028
  | .h1 => 0x030
  | .h2 => 0x038
  | .k1 => 0x040
  | .k2 => 0x048
  | .c1 => 0x050
  | .c2 => 0x058
  | .out32 => 0x060

/-- The registers in the order of R34. -/
def allRegs : List Reg :=
  [.id, .cfg, .status, .cmd, .opa, .opb, .h1, .h2, .k1, .k2, .c1, .c2, .out32]

/-- The register at an offset; nothing at a reserved offset (R34). -/
def regAt (offset : BitVec 13) : Option Reg := allRegs.find? fun r => regOffset r == offset

/-- The offset in the block's window of a platform address, nothing outside the window (R34; the block
"cannot see accesses outside its 8 KiB window", spec/60_exceptions.md R92). -/
def windowOffset (p : Params) (address : Nat) : Option (BitVec 13) :=
  if p.base ≤ address ∧ address < p.base + 0x2000 then some (BitVec.ofNat 13 (address - p.base))
  else none

/-- CFG: MASK32Q in bit 0, ROTQ in bit 1, IBUFSZ in bits 63:32 (spec/10_state.md R25). -/
def cfgWord (p : Params) : Word :=
  (BitVec.ofBool p.mask32Quirk).setWidth 64 ||| ((BitVec.ofBool p.rotQuirk).setWidth 64 <<< 1)
    ||| (BitVec.ofNat 64 p.ibufBytes <<< 32)

/-- `zext_64(H1[63:32])` (spec/10_state.md R27). -/
def out32Word (h : HashState) : Word := (h.h1.extractLsb' 32 32).setWidth 64

/-- The registers whose reads are unspecified while BUSY = 1 (spec/70_reset_and_hazards.md R106). -/
def hiddenWhileBusy : Reg → Bool
  | .h1 => true
  | .h2 => true
  | .k1 => true
  | .k2 => true
  | .c1 => true
  | .c2 => true
  | .out32 => true
  | .id => false
  | .cfg => false
  | .status => false
  | .cmd => false
  | .opa => false
  | .opb => false

/-- The value of a register (R34; CMD reads 0, spec/10_state.md R21). -/
def State.regValue (s : State) : Reg → Word
  | .id => idValue
  | .cfg => cfgWord s.params
  | .status => s.statusWord
  | .cmd => 0
  | .opa => s.opa
  | .opb => s.opb
  | .h1 => s.hash.h1
  | .h2 => s.hash.h2
  | .k1 => s.hash.k1
  | .k2 => s.hash.k2
  | .c1 => s.hash.c1
  | .c2 => s.hash.c2
  | .out32 => out32Word s.hash

/-- Reads a register. While BUSY = 1 a read of a hash register or of OUT32 returns a value drawn afresh
(R106); the draw counter is no state of the block, so no read has a side effect (R41). -/
def State.readReg (s : State) (r : Reg) : State × Word :=
  if s.busy && hiddenWhileBusy r then
    ({ s with draws := s.draws + 1 }, Config.readWhileBusy s.draws)
  else (s, s.regValue r)

/-- Writes a register (R35): CMD issues the data as a command, STATUS acts as R23 says, OPA and OPB
store, and a write to any other register is ignored. -/
def State.writeReg (s : State) (r : Reg) (v : Word) : State :=
  match r with
  | .cmd => s.issue v
  | .status => s.writeStatus v
  | .opa => { s with opa := v }
  | .opb => { s with opb := v }
  | .id => s
  | .cfg => s
  | .h1 => s
  | .h2 => s
  | .k1 => s
  | .k2 => s
  | .c1 => s
  | .c2 => s
  | .out32 => s

/-- Offsets 0x0000 to 0x0FFF (R34). -/
def inRegisterRegion (offset : BitVec 13) : Bool := decide (offset.toNat < 0x1000)

/-- Whether the width and alignment are correct for the region: 8 bytes, 8-byte aligned for a register
(R35); 1, 2, 4 or 8 bytes, naturally aligned for the buffer (R37). -/
def wellSized (offset : BitVec 13) (width : Nat) : Bool :=
  if inRegisterRegion offset then width == 8 && offset.toNat % 8 == 0
  else [1, 2, 4, 8].contains width && offset.toNat % width == 0

/-- The IBUF index of an offset of the buffer region (R37). -/
def ibufIndex (offset : BitVec 13) : Nat := offset.toNat - 0x1000

/-- Whether the bytes of a buffer access lie in IBUF (R37). -/
def State.insideIbuf (s : State) (offset : BitVec 13) (width : Nat) : Bool :=
  decide (ibufIndex offset + width ≤ s.params.ibufBytes)

/-- `Read(a, w)` (R32). -/
def State.busRead (s : State) (offset : BitVec 13) (width : Nat) : State × Response :=
  if !wellSized offset width then (s, .busError)
  else if inRegisterRegion offset then
    match regAt offset with
    | some r => ((s.readReg r).1, .data (s.readReg r).2)
    | none => (s, .data 0)
  else if s.insideIbuf offset width then (s, .data (s.readLanes (ibufIndex offset) width))
  else (s, .data 0)

/-- `Write(a, w, v)` (R32). A write into IBUF while BUSY = 1 gets a bus error
(spec/70_reset_and_hazards.md R107). -/
def State.busWrite (s : State) (offset : BitVec 13) (width : Nat) (v : Word) : State × Response :=
  if !wellSized offset width then (s, .busError)
  else if inRegisterRegion offset then
    match regAt offset with
    | some r => (s.writeReg r v, .written)
    | none => (s, .written)
  else if s.insideIbuf offset width then
    if s.busy then (s, .busError) else (s.writeLanes (ibufIndex offset) v width, .written)
  else (s, .written)

/-- Performs an access whole (R40) and gives its response. -/
def State.perform (s : State) : Access → State × Response
  | .read offset width => s.busRead offset width
  | .write offset width v => s.busWrite offset width v

/-- The access that a request of the port makes; `req_size` 0, 1, 2, 3 is 1, 2, 4, 8 bytes (R31). -/
def portAccess (q : PortRequest) : Access :=
  if q.write then .write q.addr (2 ^ q.size.toNat) q.wdata else .read q.addr (2 ^ q.size.toNat)

/-- `rsp_err` (R31). -/
def rspErr : Response → Bool
  | .written => false
  | .data _ => false
  | .busError => true

/-- `rsp_rdata`: 0 on a write or on an error (R31). -/
def rspRdata : Response → Word
  | .written => 0
  | .data v => v
  | .busError => 0

end Sys2Proof.Machine
end

