-- ==== Sys2Proof/Machine/Control.lean ====
section
/-! DEFINITION. The control commands NOP and INIT (spec/40_control.md). -/

namespace Sys2Proof.Machine

/-- NOP (R56): no change to the hash state. -/
def execNop (s : State) : Host.Outcome State Fault Refusal :=
  s.runCommand .nop fun _ h => h

/-- The hash state INIT loads (R57). -/
def initHash (seed : BitVec 32) : HashState :=
  { h1 := iv1 ^^^ seedOperand seed
    h2 := iv2 ^^^ seedOperand seed
    k1 := 0
    k2 := 0
    c1 := c1Init
    c2 := c2Init }

/-- INIT (R57). -/
def execInit (seed : BitVec 32) (s : State) : Host.Outcome State Fault Refusal :=
  s.runCommand (.init seed) fun _ _ => initHash seed

end Sys2Proof.Machine
end

