-- ==== Sys2Proof/Machine/Finalize.lean ====
section
/-! DEFINITION. The FINAL unit: the avalanche mixer and FIN (spec/43_finalize.md). -/

namespace Sys2Proof.Machine

/-- `fmix64` (R71). -/
def fmix64 (k : Word) : Word :=
  let k := k ^^^ (k >>> 33)
  let k := k * fm1
  let k := k ^^^ (k >>> 33)
  let k := k * fm2
  k ^^^ (k >>> 33)

/-- The hash state FIN leaves, for the length term (R73); K1, K2, C1 and C2 stay. -/
def finalizeHash (length : Word) (s : HashState) : HashState :=
  let h2 := s.h2 ^^^ length
  let h1 := s.h1 + h2
  let h2 := h2 + h1
  let h1 := fmix64 h1
  let h2 := fmix64 h2
  let h1 := h1 + h2
  let h2 := h2 + h1
  { s with h1 := h1, h2 := h2 }

/-- FIN (R73): the length is LOPA. -/
def execFin (s : State) : Host.Outcome State Fault Refusal :=
  s.runCommand .fin fun f h => finalizeHash f.lopa h

end Sys2Proof.Machine
end

