-- ==== Sys2Proof/Machine/OperandLoad.lean ====
section
/-! DEFINITION. The commands that load K1 and K2: RDBLK, TAIL, LDK, KXOR (spec/41_operand_load.md). -/

namespace Sys2Proof.Machine

/-- RDBLK (R60): the word at OFF to K1, the word at OFF + 8 to K2. -/
def execRdblk (off : Nat) (s : State) : Host.Outcome State Fault Refusal :=
  s.runCommand (.rdblk off) fun _ h =>
    { h with k1 := s.getblock off, k2 := s.getblock (off + 8) }

/-- TAIL (R61): XORs the CNT bytes from OFF on into K1 and K2. -/
def execTail (off cnt : Nat) (s : State) : Host.Outcome State Fault Refusal :=
  s.runCommand (.tail off cnt) fun _ h => xorTail (fun j => s.ibufByte (off + j)) cnt h

/-- LDK (R62). -/
def execLdk (s : State) : Host.Outcome State Fault Refusal :=
  s.runCommand .ldk fun f h => { h with k1 := f.lopa, k2 := f.lopb }

/-- KXOR (R63). -/
def execKxor (s : State) : Host.Outcome State Fault Refusal :=
  s.runCommand .kxor fun f h => { h with k1 := h.k1 ^^^ f.lopa, k2 := h.k2 ^^^ f.lopb }

end Sys2Proof.Machine
end

