-- ==== Sys2Proof/Machine/Round.lean ====
section
/-! DEFINITION. The MIX unit: the shifter, the round, and MIX, BMIX and WMIX (spec/42_mix.md). -/

namespace Sys2Proof.Machine

/-- `rot(x, r)` (R64): with ROT_QUIRK = 1 the distance of the right shift is `(32 - r) mod 64`, the
mathematical remainder; with ROT_QUIRK = 0 the rotate by `r`. -/
def rot (rotQuirk : Bool) (x : Word) (r : Nat) : Word :=
  if rotQuirk then (x <<< (r % 64)) ||| (x >>> ((32 - (r : Int)) % 64).toNat)
  else (x <<< r) ||| (x >>> (64 - r))

/-- `bmix64` (R66), step by step; every read sees the old registers. -/
def bmix64 (rotQuirk : Bool) (s : HashState) : HashState :=
  let k1 := s.k1 * s.c1
  let k1 := rot rotQuirk k1 23
  let k1 := k1 * s.c2
  let h1 := s.h1 ^^^ k1
  let h1 := h1 + s.h2
  let h2 := rot rotQuirk s.h2 41
  let k2 := s.k2 * s.c2
  let k2 := rot rotQuirk k2 23
  let k2 := k2 * s.c1
  let h2 := h2 ^^^ k2
  let h2 := h2 + h1
  let h1 := h1 * 3 + ha1
  let h2 := h2 * 3 + ha2
  let c1 := s.c1 * 5 + ca1
  let c2 := s.c2 * 5 + ca2
  { h1 := h1, h2 := h2, k1 := k1, k2 := k2, c1 := c1, c2 := c2 }

/-- MIX (R68): one round on K1 and K2 as they stand. -/
def execMix (s : State) : Host.Outcome State Fault Refusal :=
  s.runCommand .mix fun _ h => bmix64 s.params.rotQuirk h

/-- BMIX (R69): reads one block and runs one round. -/
def execBmix (off : Nat) (s : State) : Host.Outcome State Fault Refusal :=
  s.runCommand (.bmix off) fun _ h =>
    bmix64 s.params.rotQuirk { h with k1 := s.getblock off, k2 := s.getblock (off + 8) }

/-- WMIX (R70): loads two words and runs one round. -/
def execWmix (s : State) : Host.Outcome State Fault Refusal :=
  s.runCommand .wmix fun f h => bmix64 s.params.rotQuirk { h with k1 := f.lopa, k2 := f.lopb }

end Sys2Proof.Machine
end

