-- ==== Sys2Proof/Machine/Dispatch.lean ====
section
/-! DEFINITION. One arm per command (spec/30_encoding.md R50). -/

namespace Sys2Proof.Machine

def exec (i : Instr) (s : State) : Host.Outcome State Fault Refusal :=
  match i with
  | .nop => Sys2Proof.Machine.execNop s
  | .init seed => Sys2Proof.Machine.execInit seed s
  | .ldk => Sys2Proof.Machine.execLdk s
  | .kxor => Sys2Proof.Machine.execKxor s
  | .rdblk off => Sys2Proof.Machine.execRdblk off s
  | .tail off cnt => Sys2Proof.Machine.execTail off cnt s
  | .mix => Sys2Proof.Machine.execMix s
  | .bmix off => Sys2Proof.Machine.execBmix off s
  | .wmix => Sys2Proof.Machine.execWmix s
  | .fin => Sys2Proof.Machine.execFin s

end Sys2Proof.Machine
end

