-- ==== Sys2Proof/Machine/Events.lean ====
section
/-! DEFINITION. The events of the total order of spec/20_memory.md R43 and their effects: a host
access, the block's Complete step (spec/30_encoding.md R53), and reset
(spec/70_reset_and_hazards.md R102). -/

namespace Sys2Proof.Machine

/-- Puts a response on the bus, after those given before (spec/20_memory.md R31). -/
def State.respond (s : State) (r : Response) : State := { s with outbox := s.outbox ++ [r] }

/-- A host access and its one response (spec/20_memory.md R31). -/
def State.doAccess (s : State) (a : Access) : State := (s.perform a).1.respond (s.perform a).2

/-- What LCMD spells, while a command is in flight. -/
def State.fetched (s : State) : Option (Except DecodeError Instr) := s.inflight.map fun f => decode f.lcmd

/-- The block's Complete step (spec/30_encoding.md R53): it runs the command in flight, and is not enabled
while none is. A record that spells no command is never accepted; it would be dropped as R51 says
(log entry 6). -/
def State.complete (s : State) : Host.Outcome State Fault Refusal :=
  match s.fetched with
  | none => .next s
  | some (.ok i) => exec i s
  | some (.error e) => .next (s.reject (CmdError.ofDecode e)).retire

/-- Reset while an access may be under way: its effect is whole or absent, reset then sets the registers
anyway, and its response is not defined (spec/70_reset_and_hazards.md R102;
spec/93_implementation_defined.md I11). -/
def State.resetDuring (s : State) (underWay : Option Access) : State :=
  match underWay with
  | none => s.afterReset
  | some a =>
    let landed := if Config.landsAtReset s.draws then (s.perform a).1 else s
    let t := { landed with draws := landed.draws + 1 }.afterReset
    match Config.responseAtReset s.draws with
    | some r => t.respond r
    | none => t

/-- The effect of one event. -/
def State.handle (s : State) : Event → Host.Outcome State Fault Refusal
  | .access a => .next (s.doAccess a)
  | .complete => s.complete
  | .reset underWay => .next (s.resetDuring underWay)

/-- The next event happens; when none is to come, the block completes what is in flight
(spec/70_reset_and_hazards.md R109: a Complete step that stays enabled eventually fires). -/
def State.advance (s : State) : Host.Outcome State Fault Refusal :=
  match s.inbox with
  | [] => s.complete
  | e :: rest => { s with inbox := rest }.handle e

/-- The word in flight, with OPA and OPB as its operands, and the block's Complete step next. -/
def State.withInFlight (s : State) (v : Word) : State :=
  { s.accept v with inbox := .complete :: s.inbox }

end Sys2Proof.Machine
end

