-- ==== Sys2Proof/Machine/Step.lean ====
section
/-! DEFINITION. The one step of the machine. -/

namespace Sys2Proof.Machine

/-- The next event of the total order (spec/20_memory.md R43). -/
def step (s : State) : Host.Outcome State Fault Refusal := s.advance

/-- The command word where the block's next Complete step takes its command from, the in-flight record
(spec/10_state.md R29; log entry 9). -/
def State.withFetchWord (s : State) (nbits w : Nat) : State := s.withInFlight (tableWord nbits w)

end Sys2Proof.Machine
end

