-- ==== Sys2Proof/Machine/Procedures.lean ====
section
/-! DEFINITION. The host's side: the assembler lines of spec/30_encoding.md R54, the six public
operations as sequences of them (spec/46_host_procedures.md R76 to R83), and the source's digests as
functions of the input alone. -/

namespace Sys2Proof.Machine

/-- A line of R54. -/
inductive HostLine where
  /-- `st REG, v` -/
  | st (r : Reg) (v : Word)
  /-- `ld REG` -/
  | ld (r : Reg)
  /-- `stb i, b` -/
  | stb (i : Nat) (b : Byte)
  /-- `st.w IBUF+i, v` -/
  | stw (i width : Nat) (v : Word)
  /-- `wait` -/
  | wait
  /-- A command line alone: it writes CMD. -/
  | command (i : Instr)
  /-- The pseudo-instruction of a command without operand registers: the command line, then `wait`. -/
  | run (i : Instr)
  /-- `LDK a, b` -/
  | ldk (a b : Word)
  /-- `KXOR a, b` -/
  | kxor (a b : Word)
  /-- `WMIX a, b` -/
  | wmix (a b : Word)
  /-- `FIN len` -/
  | fin (len : Word)
  /-- `CLRK` -/
  | clrk
  /-- `CLRERR` -/
  | clrerr
deriving DecidableEq, Repr

/-- The word that a command line writes to CMD: the formulas of R54 as they stand, in R9's arithmetic. For a
well-formed command it is its encoding; `TAIL 0, 16` writes 0x1005, which the block rejects. -/
def lineWord : Instr → Word
  | .nop => 0x00
  | .init seed => (seed.setWidth 64 <<< 32) ||| 0x01
  | .ldk => 0x02
  | .kxor => 0x03
  | .rdblk off => (BitVec.ofNat 64 off <<< 32) ||| 0x04
  | .tail off cnt => (BitVec.ofNat 64 off <<< 32) ||| (BitVec.ofNat 64 cnt <<< 8) ||| 0x05
  | .mix => 0x06
  | .bmix off => (BitVec.ofNat 64 off <<< 32) ||| 0x07
  | .wmix => 0x08
  | .fin => 0x09

/-- What a line comes down to. -/
inductive HostAction where
  /-- `MemWrite(offset, width, v)` -/
  | store (offset width : Nat) (v : Word)
  /-- `MemRead(offset(REG), 8)` -/
  | load (r : Reg)
  /-- Repeats `ld STATUS` until bit 0 reads 0. -/
  | wait
deriving DecidableEq, Repr

/-- `st REG, v` (R54). -/
def stAction (r : Reg) (v : Word) : HostAction := .store (regOffset r).toNat 8 v

/-- A command line (R54): it writes CMD. -/
def commandAction (i : Instr) : HostAction := stAction .cmd (lineWord i)

/-- What a line does, the pseudo-instructions expanded as R54's table says. -/
def HostLine.actions : HostLine → List HostAction
  | .st r v => [stAction r v]
  | .ld r => [.load r]
  | .stb i b => [.store (0x1000 + i) 1 (b.setWidth 64)]
  | .stw i width v => [.store (0x1000 + i) width v]
  | .wait => [.wait]
  | .command i => [commandAction i]
  | .run i => [commandAction i, .wait]
  | .ldk a b => [stAction .opa a, stAction .opb b, commandAction .ldk, .wait]
  | .kxor a b => [stAction .opa a, stAction .opb b, commandAction .kxor, .wait]
  | .wmix a b => [stAction .opa a, stAction .opb b, commandAction .wmix, .wait]
  | .fin len => [stAction .opa len, commandAction .fin, .wait]
  | .clrk => [stAction .opa 0, stAction .opb 0, commandAction .ldk, .wait]
  | .clrerr => [stAction .status 0x2]

/-- `n` steps of the machine. -/
def steps : Nat → State → Host.Outcome State Fault Refusal
  | 0, s => .next s
  | n + 1, s =>
    match step s with
    | .next t => steps n t
    | .fault r => .fault r
    | .refused r => .refused r

/-- A host at work on the block, alone (spec/60_exceptions.md R99). `pace` is the order of the two agents that
spec/20_memory.md R32 leaves open: for each coming access of the host, whether Complete fires before it. After
the end of the list Complete fires before every access: one that stays enabled fires in the end
(spec/70_reset_and_hazards.md R109; log entry 10). -/
structure HostRun where
  block : State
  pace : List Bool
deriving DecidableEq, Repr

/-- The Complete event, if there is one, before the host's next access. -/
def paceEvents : List Bool → List Event
  | [] => [.complete]
  | true :: _ => [.complete]
  | false :: _ => []

/-- These events happen and no others. -/
def runEvents (es : List Event) (s : State) : Host.Outcome State Fault Refusal :=
  steps es.length { s with inbox := es }

/-- One access of the host. -/
def HostRun.access (h : HostRun) (a : Access) : Host.Outcome HostRun Fault Refusal :=
  match runEvents (paceEvents h.pace ++ [.access a]) h.block with
  | .next t => .next { block := t, pace := h.pace.tail }
  | .fault r => .fault r
  | .refused r => .refused r

/-- The word that the last access read, if it was a read that got one. -/
def State.lastRead (s : State) : Option Word :=
  match s.outbox.getLast? with
  | some (.data w) => some w
  | some .written => none
  | some .busError => none
  | none => none

/-- Whether the last access read a word with bit 0 set: of a STATUS read, BUSY. -/
def State.lastReadsBusy (s : State) : Bool :=
  match s.lastRead with
  | some w => w.getLsbD 0
  | none => false

/-- `ld STATUS` (R54). -/
def pollAccess : Access := .read (regOffset .status) 8

/-- `wait` (R54): `ld STATUS`, again and again until bit 0 (BUSY) reads 0. Once the pace is at its end Complete
fires before the poll, so that poll reads 0 and is the last. -/
def waitFrom : List Bool → State → Host.Outcome HostRun Fault Refusal
  | [], s => HostRun.access { block := s, pace := [] } pollAccess
  | b :: pace, s =>
    match HostRun.access { block := s, pace := b :: pace } pollAccess with
    | .next h => if h.block.lastReadsBusy then waitFrom pace h.block else .next h
    | .fault r => .fault r
    | .refused r => .refused r

/-- One action. The block "cannot see accesses outside its 8 KiB window" (spec/60_exceptions.md R92), so a
store past it is none of the block's events (log entry 14). -/
def HostRun.act (h : HostRun) : HostAction → Host.Outcome HostRun Fault Refusal
  | .store offset width v =>
    if offset < 0x2000 then h.access (.write (BitVec.ofNat 13 offset) width v) else .next h
  | .load r => h.access (.read (regOffset r) 8)
  | .wait => waitFrom h.pace h.block

/-- The actions in their order. -/
def HostRun.acts (h : HostRun) : List HostAction → Host.Outcome HostRun Fault Refusal
  | [] => .next h
  | a :: rest =>
    match h.act a with
    | .next t => t.acts rest
    | .fault r => .fault r
    | .refused r => .refused r

/-- Runs the lines from a state of the block, at a pace. -/
def runLines (lines : List HostLine) (pace : List Bool) (s : State) :
    Host.Outcome HostRun Fault Refusal :=
  HostRun.acts { block := { s with inbox := [] }, pace := pace } (lines.flatMap HostLine.actions)

/-- The result of a procedure (spec/46_host_procedures.md R83). -/
inductive HashResult (α : Type) where
  | digest (d : α)
  | fail
  | invalidArgument
deriving DecidableEq, Repr

/-- A digest made from a digest; a failure stays what it is. -/
def HashResult.map {α β : Type} (f : α → β) : HashResult α → HashResult β
  | .digest d => .digest (f d)
  | .fail => .fail
  | .invalidArgument => .invalidArgument

/-- What a procedure returns, and the run as it leaves it: the block, and every response given. -/
structure Returned (α : Type) where
  host : HostRun
  result : HashResult α
deriving DecidableEq, Repr

/-- How a procedure ends. -/
abbrev Ended (α : Type) : Type := Host.Outcome (Returned α) Fault Refusal

/-- The procedure that returns `f` of the digest another one returns. -/
def mapDigest {α β : Type} (f : α → β) (o : Ended α) : Ended β :=
  match o with
  | .next r => .next { host := r.host, result := r.result.map f }
  | .fault r => .fault r
  | .refused r => .refused r

/-- `ld REG`, and what the host does with the word read. An aligned 8-byte read of a register always gets one
(spec/20_memory.md R35). -/
def HostRun.load {α : Type} (h : HostRun) (r : Reg) (use : Word → HostRun → Ended α) : Ended α :=
  match h.act (.load r) with
  | .next t =>
    match t.block.lastRead with
    | some w => use w t
    | none => .next { host := t, result := .fail }
  | .fault r => .fault r
  | .refused r => .refused r

/-- `return (ld H1, ld H2)` (R76, R80). -/
def HostRun.returnPair (h : HostRun) : Ended (Word × Word) :=
  h.load .h1 fun h1 h => h.load .h2 fun h2 h => .next { host := h, result := .digest (h1, h2) }

/-- The high 32 bits of H1 by `ld OUT32`, bits 31:0 (R79). -/
def HostRun.returnHigh (h : HostRun) : Ended (BitVec 32) :=
  h.load .out32 fun v h => .next { host := h, result := .digest (v.extractLsb' 0 32) }

/-- "st <- ld STATUS; if st[1] = 1 (ERR) or st[2] = 0 (DONE) then return FAIL" (R76, R80); only else the host
reads on. -/
def HostRun.judge {α : Type} (h : HostRun) (readOn : HostRun → Ended α) : Ended α :=
  h.load .status fun st h =>
    if st.getLsbD 1 || !st.getLsbD 2 then .next { host := h, result := .fail } else readOn h

/-- Runs the lines of a procedure, reads STATUS, and reads the digest if there is one. -/
def runAndJudge {α : Type} (lines : List HostLine) (readOn : HostRun → Ended α) (pace : List Bool)
    (s : State) : Ended α :=
  match runLines lines pace s with
  | .next h => h.judge readOn
  | .fault r => .fault r
  | .refused r => .refused r

/-- The lines of one chunk of R76: the stores, the full blocks, and the tail where it lies here. -/
def chunkLines (size : Nat) (b : List Byte) (c : Nat) : List HostLine :=
  let base := c * size
  let nb := b.length / 16
  let r := b.length % 16
  (((b.drop base).take size).zipIdx.map fun x => .stb x.2 x.1)
    ++ (((List.range nb).filter fun j => 16 * j / size == c).map fun j => .run (.bmix (16 * j - base)))
    ++ (if 0 < r ∧ 16 * nb / size = c then [.clrk, .run (.tail (16 * nb - base) r), .run .mix] else [])

/-- `HASH128B`'s lines (R76) up to FIN, for an IBUF of `size` bytes; inputs longer than IBUF go in chunks (R77).
DESIGN CHOICE (log entry 15): R76 passes `n` to FIN and is silent on a length of 2^64 or more; `n` mod 2^64
is passed. -/
def hashBytesLines (size : Nat) (b : List Byte) (seed : BitVec 32) : List HostLine :=
  [.wait, .clrerr, .run (.init seed)]
    ++ (List.range ((b.length + size - 1) / size)).flatMap (chunkLines size b)
    ++ [.fin (BitVec.ofNat 64 b.length)]

/-- The pairs of words that R80's rounds take; an odd last word is paired with 0. -/
def wordPairs : List Word → List (Word × Word)
  | [] => []
  | [w] => [(w, 0)]
  | a :: b :: rest => (a, b) :: wordPairs rest

/-- The lines of R80 for the words: one WMIX for each pair. -/
def wordLines (w : List Word) : List HostLine := (wordPairs w).map fun x => .wmix x.1 x.2

/-- `HASH128W`'s lines (R80) up to FIN. -/
def hashWordsLines (w : List Word) (seed : BitVec 32) : List HostLine :=
  [.wait, .clrerr, .run (.init seed)] ++ wordLines w
    ++ [.fin (BitVec.ofNat 64 (8 * w.length))]

/-- R76's procedure, with what is read at its end. -/
def hashBytes {α : Type} (readOn : HostRun → Ended α) (b : List Byte) (seed : BitVec 32) (pace : List Bool)
    (s : State) : Ended α :=
  runAndJudge (hashBytesLines s.params.ibufBytes b seed) readOn pace s

/-- `HASH128B` (R76). -/
def hash128b (b : List Byte) (seed : BitVec 32) (pace : List Bool) (s : State) : Ended (Word × Word) :=
  hashBytes HostRun.returnPair b seed pace s

/-- `HASH64B`: the first element of `HASH128B` (R79). -/
def hash64b (b : List Byte) (seed : BitVec 32) (pace : List Bool) (s : State) : Ended Word :=
  mapDigest (fun d => d.1) (hash128b b seed pace s)

/-- `HASH32B`: bits 31:0 of `ld OUT32` (R79), read in the place of H1 and H2 (DEDUCED, log entry 17). -/
def hash32b (b : List Byte) (seed : BitVec 32) (pace : List Bool) (s : State) : Ended (BitVec 32) :=
  hashBytes HostRun.returnHigh b seed pace s

/-- `HASH128W` (R80); an empty word sequence is an invalid argument, and no command is issued. -/
def hash128w (w : List Word) (seed : BitVec 32) (pace : List Bool) (s : State) : Ended (Word × Word) :=
  match w with
  | [] => .next { host := { block := s, pace := pace }, result := .invalidArgument }
  | a :: rest => runAndJudge (hashWordsLines (a :: rest) seed) HostRun.returnPair pace s

/-- `HASH64W`: the first element of `HASH128W` (R81). -/
def hash64w (w : List Word) (seed : BitVec 32) (pace : List Bool) (s : State) : Ended Word :=
  mapDigest (fun d => d.1) (hash128w w seed pace s)

/-- `HASH32W`: H1[63:32] (R81). -/
def hash32w (w : List Word) (seed : BitVec 32) (pace : List Bool) (s : State) : Ended (BitVec 32) :=
  mapDigest (fun d => d.1.extractLsb' 32 32) (hash128w w seed pace s)

/-- The round of a pair of words (R80). -/
def mixPair (rotQuirk : Bool) (h : HashState) (x : Word × Word) : HashState :=
  bmix64 rotQuirk { h with k1 := x.1, k2 := x.2 }

/-- The rounds of the word front end, with no buffer and no bus (R80). -/
def mixWords (rotQuirk : Bool) (w : List Word) (h : HashState) : HashState :=
  (wordPairs w).foldl (mixPair rotQuirk) h

/-- The source's digest of a word sequence, as the spec reads its source (log entry 11). The length term is
`(8 * m) mod 2^64` (R80). -/
def digestWords (p : Params) (w : List Word) (seed : BitVec 32) : Word × Word :=
  let h := finalizeHash (BitVec.ofNat 64 (8 * w.length)) (mixWords p.rotQuirk w (initHash seed))
  (h.h1, h.h2)

/-- The round of the `j`-th full block of a byte sequence (R76). -/
def mixBlock (p : Params) (b : List Byte) (h : HashState) (j : Nat) : HashState :=
  bmix64 p.rotQuirk
    { h with
      k1 := blockWord p.mask32Quirk ((b.drop (16 * j)).take 8)
      k2 := blockWord p.mask32Quirk ((b.drop (16 * j + 8)).take 8) }

/-- The rounds of the byte front end, with no buffer and no bus (R76). -/
def mixBytes (p : Params) (b : List Byte) (h : HashState) : HashState :=
  let nb := b.length / 16
  let r := b.length % 16
  let full := (List.range nb).foldl (mixBlock p b) h
  if r = 0 then full
  else bmix64 p.rotQuirk (xorTail (fun j => b.getD (16 * nb + j) 0) r { full with k1 := 0, k2 := 0 })

/-- The source's digest of a byte sequence, as the spec reads its source (log entry 11). The length term is
`n` mod 2^64, a DESIGN CHOICE for a length of 2^64 or more (log entry 15). -/
def digestBytes (p : Params) (b : List Byte) (seed : BitVec 32) : Word × Word :=
  let h := finalizeHash (BitVec.ofNat 64 b.length) (mixBytes p b (initHash seed))
  (h.h1, h.h2)

end Sys2Proof.Machine
end

