-- ==== Sys2Proof/Safety.lean ====
section
/-! DEFINITION. What every reachable state of the block satisfies, and when the block is idle. -/

namespace Sys2Proof.Machine

/-- ERRCODE is 0 while ERR = 0 (spec/10_state.md R22), and one of the codes 1 to 5 while ERR = 1
(spec/60_exceptions.md R86: the others are never produced). -/
abbrev State.errcodeLegal (s : State) : Prop :=
  if s.err then 1 ≤ s.errcode.toNat ∧ s.errcode.toNat ≤ 5 else s.errcode = 0

/-- The record in flight is of a command that the checks of spec/30_encoding.md R52 let through. -/
def State.inflightAccepted (s : State) : Bool :=
  match s.inflight with
  | none => true
  | some f =>
    match decode f.lcmd with
    | .ok i => s.commandError i == none
    | .error _ => false

/-- IBUF is in canonical form and holds no byte beyond IBUF_BYTES (spec/10_state.md R28). -/
abbrev State.ibufLegal (s : State) : Prop :=
  Memory.wf s.ibuf ∧ ∀ c ∈ s.ibuf, c.1 < s.params.ibufBytes

/-- Until an INIT completes the hash state is the reset zeros, and no digest is flagged
(spec/10_state.md R30; spec/60_exceptions.md R88). -/
abbrev State.zeroBeforeInit (s : State) : Prop :=
  s.initd = false → s.hash = State.reset.hash ∧ s.done = false

/-- The invariant of the block. -/
abbrev State.Inv (s : State) : Prop :=
  Params.wf s.params ∧ s.ibufLegal ∧ s.errcodeLegal ∧ s.inflightAccepted = true ∧ s.zeroBeforeInit

/-- Nothing is in flight and nothing is to come. -/
abbrev State.idle (s : State) : Prop := s.inflight = none ∧ s.inbox = []

end Sys2Proof.Machine
end

