-- ==== Sys2Proof/Certificates/Slice0/Obligations.lean ====
section
/-! DEFINITION. The statements about the model, for the provers. Each says in its docstring which rule of
the spec it formalises. The helpers before them write the rules' formulas out a second time, from the
spec's text and with its literals, so that a slip in the model's own definitions makes a statement false. -/

open Sys2Proof Sys2Proof.Machine

namespace Sys2Proof.Written

/-- R64's table for r = 23. -/
def rot23 (rotQuirk : Bool) (x : Word) : Word :=
  if rotQuirk then (x <<< 23) ||| (x >>> 9) else (x <<< 23) ||| (x >>> 41)

/-- R64's table for r = 41. -/
def rot41 (rotQuirk : Bool) (x : Word) : Word :=
  if rotQuirk then (x <<< 41) ||| (x >>> 55) else (x <<< 41) ||| (x >>> 23)

/-- The K1 a round leaves: steps 1 and 2 of R66. -/
def roundK1 (q : Bool) (h : HashState) : Word := rot23 q (h.k1 * h.c1) * h.c2

/-- The K2 a round leaves: step 4 of R66. -/
def roundK2 (q : Bool) (h : HashState) : Word := rot23 q (h.k2 * h.c2) * h.c1

/-- The running h1 after step 2 of R66. -/
def roundA1 (q : Bool) (h : HashState) : Word := (h.h1 ^^^ roundK1 q h) + h.h2

/-- The running h2 after step 4 of R66. -/
def roundA2 (q : Bool) (h : HashState) : Word := (rot41 q h.h2 ^^^ roundK2 q h) + roundA1 q h

/-- The six registers after a round (R66). -/
def bmixRound (q : Bool) (h : HashState) : HashState :=
  { h1 := roundA1 q h * 3 + 0x52dce729
    h2 := roundA2 q h * 3 + 0x38495ab5
    k1 := roundK1 q h
    k2 := roundK2 q h
    c1 := h.c1 * 5 + 0x7b7d159c
    c2 := h.c2 * 5 + 0x6bce6396 }

/-- A shift-XOR of R71. -/
def foldDown (k : Word) : Word := k ^^^ (k >>> 33)

/-- `fmix64` (R71). -/
def fmix (k : Word) : Word :=
  foldDown (foldDown (foldDown k * 0xff51afd7ed558ccd) * 0xc4ceb9fe1a85ec53)

/-- The errors a command can meet when its word is written to CMD, and no others: E_BUSY; E_NOINIT where
the command needs INITD = 1; E_RANGE where the bytes from IBUF index 0 up to `reach` are not all there
(R52, R86); and E_RSVD for a word with the command's opcode and a field set that it does not use (R51). -/
def errorsAtIssue (i : Instr) (opc : BitVec 8) (usesImm usesCnt needsInitd : Bool) (reach : Nat) : Prop :=
  (∀ s : State, s.issueError (encode i) =
    if s.inflight ≠ none then some .busy
    else if s.initd = false ∧ needsInitd = true then some .noInit
    else if s.params.ibufBytes < reach then some .range
    else none) ∧
  ∀ (s : State) (v : Word), s.inflight = none → v.extractLsb' 0 8 = opc →
    (v.extractLsb' 12 20 ≠ 0 ∨ (usesCnt = false ∧ v.extractLsb' 8 4 ≠ 0) ∨
      (usesImm = false ∧ v.extractLsb' 32 32 ≠ 0)) →
    s.issueError v = some .rsvd

/-- What a rejection with this code leaves (R90). -/
def rejected (s : State) (code : BitVec 8) : State :=
  if s.err then s else { s with err := true, errcode := code }

/-- The code of the first check of R52 that the word fails, from the word's fields. -/
def firstFailing (s : State) (v : Word) : Option (BitVec 8) :=
  let opc := (v.extractLsb' 0 8).toNat
  let cnt := (v.extractLsb' 8 4).toNat
  let rsv := (v.extractLsb' 12 20).toNat
  let imm := (v.extractLsb' 32 32).toNat
  if s.inflight ≠ none then some 0x01
  else if 0x0A ≤ opc then some 0x02
  else if rsv ≠ 0 ∨ (cnt ≠ 0 ∧ opc ≠ 0x05) ∨ (imm ≠ 0 ∧ opc ∉ [0x01, 0x04, 0x05, 0x07]) then some 0x03
  else if s.initd = false ∧ opc ∉ [0x00, 0x01] then some 0x04
  else if opc ∈ [0x04, 0x07] ∧ imm + 16 > s.params.ibufBytes then some 0x05
  else if opc = 0x05 ∧ imm + cnt > s.params.ibufBytes then some 0x05
  else none

/-- The next event is the block's Complete step; it is so with an empty inbox by the model's choice, log
entry 4. -/
def completesNext (s : State) : Prop := s.inbox = [] ∨ ∃ rest, s.inbox = .complete :: rest

/-- The next event is a reset. -/
def resetsNext (s : State) : Prop := ∃ u rest, s.inbox = .reset u :: rest

/-- The next event completes a command in flight of which `P` holds. -/
def completes (s : State) (P : Instr → Prop) : Prop :=
  completesNext s ∧ ∃ f i, s.inflight = some f ∧ decode f.lcmd = .ok i ∧ P i

end Sys2Proof.Written

open Sys2Proof.Written

/-! ## Encoding -/

/-- R47, R49, R50, R54: decoding the word of a well-formed command gives the command back. -/
def Obligations.DecodeOfEncodeIsTheCommand : Prop :=
  ∀ i : Instr, i.wellFormed = true → decode (encode i) = .ok i

/-- R47 to R51: a word that decodes is the word of the command it decodes to, which is well-formed. -/
def Obligations.EncodeOfDecodeIsTheWord : Prop :=
  ∀ (w : Word) (i : Instr), decode w = .ok i → i.wellFormed = true ∧ encode i = w

/-- R50: the decoder follows the table of match and mask, with the operands of R47's fields; the other
opcodes are rejected. -/
def Obligations.WordDecodesAsItsRowSays : Prop :=
  ∀ v : Word,
    (v &&& 0xFFFFFFFFFFFFFFFF = 0x0000000000000000 ↔ decode v = .ok .nop) ∧
    (v &&& 0x00000000FFFFFFFF = 0x0000000000000001 ↔ decode v = .ok (.init (v.extractLsb' 32 32))) ∧
    (v &&& 0xFFFFFFFFFFFFFFFF = 0x0000000000000002 ↔ decode v = .ok .ldk) ∧
    (v &&& 0xFFFFFFFFFFFFFFFF = 0x0000000000000003 ↔ decode v = .ok .kxor) ∧
    (v &&& 0x00000000FFFFFFFF = 0x0000000000000004 ↔
      decode v = .ok (.rdblk (v.extractLsb' 32 32).toNat)) ∧
    (v &&& 0x00000000FFFFF0FF = 0x0000000000000005 ↔
      decode v = .ok (.tail (v.extractLsb' 32 32).toNat (v.extractLsb' 8 4).toNat)) ∧
    (v &&& 0xFFFFFFFFFFFFFFFF = 0x0000000000000006 ↔ decode v = .ok .mix) ∧
    (v &&& 0x00000000FFFFFFFF = 0x0000000000000007 ↔
      decode v = .ok (.bmix (v.extractLsb' 32 32).toNat)) ∧
    (v &&& 0xFFFFFFFFFFFFFFFF = 0x0000000000000008 ↔ decode v = .ok .wmix) ∧
    (v &&& 0xFFFFFFFFFFFFFFFF = 0x0000000000000009 ↔ decode v = .ok .fin) ∧
    (0x0A ≤ (v.extractLsb' 0 8).toNat → decode v = .error .opcode)

/-- R51: which words spell no command, and by which of the two errors. -/
def Obligations.IllegalWordsAreToldApart : Prop :=
  ∀ v : Word,
    (decode v = .error .opcode ↔ 0x0A ≤ (v.extractLsb' 0 8).toNat) ∧
    (decode v = .error .rsvd ↔ (v.extractLsb' 0 8).toNat < 0x0A ∧
      (v.extractLsb' 12 20 ≠ 0 ∨ (v.extractLsb' 8 4 ≠ 0 ∧ v.extractLsb' 0 8 ≠ 0x05) ∨
        (v.extractLsb' 32 32 ≠ 0 ∧ v.extractLsb' 0 8 ∉ [0x01#8, 0x04#8, 0x05#8, 0x07#8])))

/-- Words of spec/95_test_vectors.md decode to the commands they stand for. -/
def Obligations.VectorWordsDecode : Prop :=
  decode 0x0000000000000000 = .ok .nop ∧
  decode 0xFFFFFFFF00000001 = .ok (.init (-1)) ∧
  decode 0x0000000000000002 = .ok .ldk ∧
  decode 0x0000000000000003 = .ok .kxor ∧
  decode 0x00000FF000000004 = .ok (.rdblk 4080) ∧
  decode 0x0000001000000F05 = .ok (.tail 16 15) ∧
  decode 0x0000000000000006 = .ok .mix ∧
  decode 0x00000FF100000007 = .ok (.bmix 4081) ∧
  decode 0x0000000000000008 = .ok .wmix ∧
  decode 0x0000000000000009 = .ok .fin ∧
  decode 0x00000000000010FF = .error .opcode ∧
  decode 0x0000000000001006 = .error .rsvd

/-! ## The step -/

/-- R53: while a command is in flight, a Complete step is exec of the command LCMD spells; it is next when
the model's inbox (log entry 4) says so or is empty. -/
def Obligations.StepRunsTheCommandInFlight : Prop :=
  ∀ (s : State) (f : InFlight) (i : Instr), s.inflight = some f → decode f.lcmd = .ok i →
    (s.inbox = [] → step s = exec i s) ∧
    (∀ rest, s.inbox = .complete :: rest → step s = exec i { s with inbox := rest })

/-- The model's own convention for running one word (log entry 9): the step after `withFetchWord` is exec of
the command the word spells, with the word in flight and OPA and OPB as its operands. -/
def Obligations.StepRunsTheFetchedWord : Prop :=
  ∀ (s : State) (w : Nat) (i : Instr), decodeTableWord 64 w = some i →
    step (s.withFetchWord 64 w) =
      exec i { s with inflight := some { lcmd := BitVec.ofNat 64 w, lopa := s.opa, lopb := s.opb } }

/-- R31, R43: an access is performed whole and gets one response, after the earlier ones. The inbox and the
outbox are the model's, log entries 4 and 8. -/
def Obligations.StepPerformsTheAccess : Prop :=
  ∀ (s : State) (a : Access) (rest : List Event), s.inbox = .access a :: rest →
    ∃ t r, { s with inbox := rest }.perform a = (t, r) ∧
      step s = .next { t with outbox := s.outbox ++ [r] }

/-- R32: Complete is enabled only when BUSY = 1; the model's step of an idle block with nothing to come, or
with Complete to come, leaves the block as it is (log entry 4). -/
def Obligations.CompleteDoesNothingWhileIdle : Prop :=
  ∀ s : State, s.inflight = none →
    (s.inbox = [] → step s = .next s) ∧
    (∀ rest, s.inbox = .complete :: rest → step s = .next { s with inbox := rest })

/-- R85, R94: nothing the block does stops it; every step has a next state. -/
def Obligations.EveryStepAnswersNext : Prop := ∀ s : State, ∃ t, step s = .next t

/-! ## The commands -/

/-- R56: NOP completes and changes no register, in any state; its encoding and its errors. -/
def Obligations.NopChangesNothing : Prop :=
  (∀ (s : State) (f : InFlight), s.inflight = some f → exec .nop s = .next { s with inflight := none }) ∧
  encode .nop = 0x0000000000000000 ∧
  errorsAtIssue .nop 0x00 false false false 0

/-- R57: INIT loads the six registers from the seed, sets INITD and clears DONE, in any state; its encoding
and its errors. -/
def Obligations.InitStartsAHash : Prop :=
  ∀ seed : BitVec 32,
    (∀ (s : State) (f : InFlight), s.inflight = some f →
      exec (.init seed) s = .next { s with
        hash :=
          { h1 := 0x9368e53c2f6af274 ^^^ seed.signExtend 64
            h2 := 0x586dcd208f7cd3fd ^^^ seed.signExtend 64
            k1 := 0
            k2 := 0
            c1 := 0x87c37b91114253d5
            c2 := 0x4cf5ad432745937f }
        initd := true
        done := false
        inflight := none }) ∧
    encode (.init seed) = (seed.setWidth 64 <<< 32) ||| 0x01 ∧
    errorsAtIssue (.init seed) 0x01 true false false 0

/-- R62: LDK loads K1 and K2 from the latched operands; its encoding and its errors. -/
def Obligations.LdkLoadsTheOperands : Prop :=
  (∀ (s : State) (f : InFlight), s.inflight = some f → s.initd = true →
    exec .ldk s = .next { s with
      hash := { s.hash with k1 := f.lopa, k2 := f.lopb }
      done := false
      inflight := none }) ∧
  encode .ldk = 0x0000000000000002 ∧
  errorsAtIssue .ldk 0x02 false false true 0

/-- R63: KXOR XORs the latched operands into K1 and K2; its encoding and its errors. -/
def Obligations.KxorXorsTheOperands : Prop :=
  (∀ (s : State) (f : InFlight), s.inflight = some f → s.initd = true →
    exec .kxor s = .next { s with
      hash := { s.hash with k1 := s.hash.k1 ^^^ f.lopa, k2 := s.hash.k2 ^^^ f.lopb }
      done := false
      inflight := none }) ∧
  encode .kxor = 0x0000000000000003 ∧
  errorsAtIssue .kxor 0x03 false false true 0

/-- R58, R60: RDBLK packs 16 bytes into K1 and K2, byte by byte: the byte at the lowest index is the most
significant, and with MASK32_QUIRK = 1 the upper four bytes of each word are 0; its encoding and its
errors. -/
def Obligations.RdblkPacksTheBlock : Prop :=
  ∀ off : Nat, off < 2 ^ 32 →
    (∀ (s : State) (f : InFlight), s.inflight = some f → s.initd = true →
      off + 16 ≤ s.params.ibufBytes →
      ∃ k1 k2 : Word,
        exec (.rdblk off) s = .next { s with
          hash := { s.hash with k1 := k1, k2 := k2 }
          done := false
          inflight := none } ∧
        ∀ j < 8,
          k1.extractLsb' (8 * j) 8 =
            (if s.params.mask32Quirk = true ∧ 4 ≤ j then 0 else s.ibufByte (off + (7 - j))) ∧
          k2.extractLsb' (8 * j) 8 =
            (if s.params.mask32Quirk = true ∧ 4 ≤ j then 0 else s.ibufByte (off + 8 + (7 - j)))) ∧
    encode (.rdblk off) = (BitVec.ofNat 64 off <<< 32) ||| 0x04 ∧
    errorsAtIssue (.rdblk off) 0x04 true false true (off + 16)

/-- R61: TAIL XORs tail byte j into byte j of K1 for j below 8 and into byte j - 8 of K2 from 8 on, and
changes no other byte of them; its encoding and its errors. -/
def Obligations.TailXorsTheBytes : Prop :=
  ∀ off cnt : Nat, off < 2 ^ 32 → cnt < 16 →
    (∀ (s : State) (f : InFlight), s.inflight = some f → s.initd = true →
      off + cnt ≤ s.params.ibufBytes →
      ∃ k1 k2 : Word,
        exec (.tail off cnt) s = .next { s with
          hash := { s.hash with k1 := k1, k2 := k2 }
          done := false
          inflight := none } ∧
        ∀ j < 8,
          k1.extractLsb' (8 * j) 8 = s.hash.k1.extractLsb' (8 * j) 8 ^^^
            (if j < cnt then s.ibufByte (off + j) else 0) ∧
          k2.extractLsb' (8 * j) 8 = s.hash.k2.extractLsb' (8 * j) 8 ^^^
            (if j + 8 < cnt then s.ibufByte (off + (j + 8)) else 0)) ∧
    encode (.tail off cnt) = (BitVec.ofNat 64 off <<< 32) ||| (BitVec.ofNat 64 cnt <<< 8) ||| 0x05 ∧
    errorsAtIssue (.tail off cnt) 0x05 true true true (off + cnt)

/-- R66, R68: MIX runs one round on K1 and K2 as they stand; its encoding and its errors. -/
def Obligations.MixRunsOneRound : Prop :=
  (∀ (s : State) (f : InFlight), s.inflight = some f → s.initd = true →
    exec .mix s = .next { s with
      hash := bmixRound s.params.rotQuirk s.hash
      done := false
      inflight := none }) ∧
  encode .mix = 0x0000000000000006 ∧
  errorsAtIssue .mix 0x06 false false true 0

/-- R69: BMIX completes, and leaves what RDBLK with the same offset followed by MIX leaves; its encoding and
its errors. MIX runs here on an idle block, where exec is issue, acceptance and completion in one, the model's
choice (log entry 5). -/
def Obligations.BmixIsRdblkThenMix : Prop :=
  ∀ off : Nat, off < 2 ^ 32 →
    (∀ (s : State) (f : InFlight), s.inflight = some f → s.initd = true →
      off + 16 ≤ s.params.ibufBytes →
      ∃ t u : State, exec (.rdblk off) s = .next t ∧ exec .mix t = .next u ∧
        exec (.bmix off) s = .next u ∧
        u = { s with
          hash := bmixRound s.params.rotQuirk { s.hash with k1 := t.hash.k1, k2 := t.hash.k2 }
          done := false
          inflight := none }) ∧
    encode (.bmix off) = (BitVec.ofNat 64 off <<< 32) ||| 0x07 ∧
    errorsAtIssue (.bmix off) 0x07 true false true (off + 16)

/-- R70: WMIX runs one round on the latched operands, which is LDK followed by MIX (run on an idle block, where
exec is issue, acceptance and completion in one, the model's choice, log entry 5); its encoding and its
errors. -/
def Obligations.WmixIsLdkThenMix : Prop :=
  (∀ (s : State) (f : InFlight), s.inflight = some f → s.initd = true →
    ∃ t u : State, exec .ldk s = .next t ∧ exec .mix t = .next u ∧ exec .wmix s = .next u ∧
      u = { s with
        hash := bmixRound s.params.rotQuirk { s.hash with k1 := f.lopa, k2 := f.lopb }
        done := false
        inflight := none }) ∧
  encode .wmix = 0x0000000000000008 ∧
  errorsAtIssue .wmix 0x08 false false true 0

/-- R71, R73: FIN folds the length into H2, mixes H1 and H2 and sets DONE; K1, K2, C1 and C2 stay; its
encoding and its errors. -/
def Obligations.FinFinalizesTheHash : Prop :=
  (∀ (s : State) (f : InFlight), s.inflight = some f → s.initd = true →
    ∃ h1 h2 : Word,
      h1 = fmix (s.hash.h1 + (s.hash.h2 ^^^ f.lopa)) +
        fmix ((s.hash.h2 ^^^ f.lopa) + (s.hash.h1 + (s.hash.h2 ^^^ f.lopa))) ∧
      h2 = fmix ((s.hash.h2 ^^^ f.lopa) + (s.hash.h1 + (s.hash.h2 ^^^ f.lopa))) + h1 ∧
      exec .fin s = .next { s with
        hash := { s.hash with h1 := h1, h2 := h2 }
        done := true
        inflight := none }) ∧
  encode .fin = 0x0000000000000009 ∧
  errorsAtIssue .fin 0x09 false false true 0

/-- R64, R65: the rotate in its two forms, bit by bit; the quirk form loses information and the other is a
bijection. -/
def Obligations.RotateFollowsItsTable : Prop :=
  (∀ (q : Bool) (x : Word), rot q x 23 = rot23 q x ∧ rot q x 41 = rot41 q x) ∧
  (∀ x : Word,
    (rot true x 23).extractLsb' 23 32 = x.extractLsb' 0 32 ||| x.extractLsb' 32 32 ∧
    (rot true x 23).extractLsb' 55 9 = x.extractLsb' 32 9 ∧
    (rot true x 23).extractLsb' 0 23 = x.extractLsb' 9 23 ∧
    (rot true x 41).extractLsb' 9 32 = 0 ∧
    (rot true x 41).extractLsb' 41 23 = x.extractLsb' 0 23 ∧
    (rot true x 41).extractLsb' 0 9 = x.extractLsb' 55 9) ∧
  rot true (1 <<< 23) 41 = 0 ∧ rot true 0 41 = 0 ∧
  (∀ y : Word, (∃ x, rot false x 23 = y ∧ ∀ x', rot false x' 23 = y → x' = x) ∧
    (∃ x, rot false x 41 = y ∧ ∀ x', rot false x' 41 = y → x' = x))

/-- R71, R72: the avalanche mixer is the written one, and a bijection on 64-bit values, with the values R72
gives. -/
def Obligations.FmixIsABijection : Prop :=
  (∀ k : Word, fmix64 k = fmix k) ∧
  (∀ y : Word, ∃ k, fmix64 k = y ∧ ∀ k', fmix64 k' = y → k' = k) ∧
  fmix64 0 = 0 ∧ fmix64 1 = 0xb456bcfc34c2cb2c ∧
  fmix64 0xffffffffffffffff = 0x64b5720b4b825f21 ∧ fmix64 0x8000000000000000 = 0x8f780810af31a493

/-- R24: what each completion does to DONE; a rejected command does not change it. -/
def Obligations.DoneFollowsTheLastCommand : Prop :=
  (∀ (s t : State) (f : InFlight) (i : Instr), s.Inv → s.inflight = some f → decode f.lcmd = .ok i →
    exec i s = .next t →
    (i = .fin → t.done = true) ∧ (i = .nop → t.done = s.done) ∧
    (i ≠ .fin → i ≠ .nop → t.done = false)) ∧
  (∀ (s : State) (v : Word) (e : CmdError), s.issueError v = some e → (s.issue v).done = s.done)

/-! ## Frames -/

/-- R20, R25, R28, R53: whatever command runs, no operand register, no parameter and no byte of IBUF
changes, and the block is idle afterwards. On an idle block exec is the model's form of issue, acceptance and
completion in one, log entry 5. -/
def Obligations.CommandsKeepOperandsAndBuffer : Prop :=
  ∀ (i : Instr) (s t : State), exec i s = .next t →
    t.opa = s.opa ∧ t.opb = s.opb ∧ t.params = s.params ∧ t.inflight = none ∧
    (∀ a : Nat, t.ibufByte a = s.ibufByte a)

/-- R17, R18, R19: which commands write which of the six hash registers, over every step of the machine: the
accumulators are written by INIT, the rounds and FIN alone, the temporaries by all but NOP and FIN, the
constants by INIT and the rounds alone; besides, reset writes them. -/
def Obligations.HashWrittenByItsCommandsAlone : Prop :=
  ∀ s t : State, step s = .next t → ¬ resetsNext s →
    ((t.hash.h1 ≠ s.hash.h1 ∨ t.hash.h2 ≠ s.hash.h2) →
      completes s fun i => i.mnemonic ∈ ["INIT", "MIX", "BMIX", "WMIX", "FIN"]) ∧
    ((t.hash.k1 ≠ s.hash.k1 ∨ t.hash.k2 ≠ s.hash.k2) →
      completes s fun i =>
        i.mnemonic ∈ ["INIT", "LDK", "KXOR", "RDBLK", "TAIL", "MIX", "BMIX", "WMIX"]) ∧
    ((t.hash.c1 ≠ s.hash.c1 ∨ t.hash.c2 ≠ s.hash.c2) →
      completes s fun i => i.mnemonic ∈ ["INIT", "MIX", "BMIX", "WMIX"])

/-- R17, R18, R19, R22, R25, R53: no access of the host changes the hash state, DONE, INITD or the
parameters. -/
def Obligations.HostAccessKeepsTheHash : Prop :=
  ∀ (s : State) (a : Access),
    (s.perform a).1.hash = s.hash ∧ (s.perform a).1.done = s.done ∧
    (s.perform a).1.initd = s.initd ∧ (s.perform a).1.params = s.params

/-! ## Issue, rejection and completion -/

/-- R52, R53, R91: a write of a word to CMD gets an `Ok` response; the first failing check rejects the word,
and where none fails the word, OPA and OPB are latched and nothing else changes. -/
def Obligations.CmdWriteChecksInOrder : Prop :=
  ∀ (s : State) (v : Word),
    s.perform (.write 0x018 8 v) =
      ((match firstFailing s v with
        | some code => rejected s code
        | none => { s with inflight := some { lcmd := v, lopa := s.opa, lopb := s.opb } }), .written)

/-- R86, R90: a rejection records its code if ERR = 0, the first error is kept, nothing else changes, and
ERR does not stop later commands. -/
def Obligations.FirstErrorIsKept : Prop :=
  (∀ (s : State) (v : Word) (e : CmdError), s.issueError v = some e →
    (s.err = false → s.issue v = { s with
      err := true
      errcode := match e with
        | .busy => 0x01
        | .opcode => 0x02
        | .rsvd => 0x03
        | .noInit => 0x04
        | .range => 0x05 }) ∧
    (s.err = true → s.issue v = s)) ∧
  (∀ (s : State) (v : Word) (b : Bool) (c : BitVec 8),
    { s with err := b, errcode := c }.issueError v = s.issueError v)

/-- R87: while BUSY = 1 a CMD write is dropped with E_BUSY; the command in flight stays in flight and
completes as it would have done without the write. -/
def Obligations.BusyBlockDropsTheWord : Prop :=
  ∀ (s : State) (f : InFlight) (v : Word), s.inflight = some f →
    (s.perform (.write 0x018 8 v)).2 = .written ∧
    (s.perform (.write 0x018 8 v)).1 = rejected s 0x01 ∧
    (s.perform (.write 0x018 8 v)).1.inflight = some f ∧
    (∀ i : Instr, decode f.lcmd = .ok i →
      ∃ t u, exec i s = .next t ∧ exec i (s.perform (.write 0x018 8 v)).1 = .next u ∧
        u.hash = t.hash ∧ u.done = t.done ∧ u.initd = t.initd ∧ u.inflight = none ∧
        (∀ j : Nat, u.ibufByte j = t.ibufByte j))

/-- R88: while INITD = 0 an idle block rejects every command but NOP and INIT with E_NOINIT, and accepts
those two; and no step but a reset clears INITD. -/
def Obligations.NothingBeforeInit : Prop :=
  (∀ (s : State) (i : Instr), s.inflight = none → s.initd = false → i.wellFormed = true →
    ((i = .nop ∨ ∃ seed, i = .init seed) → s.issueError (encode i) = none) ∧
    (i ≠ .nop → (∀ seed, i ≠ .init seed) →
      s.issueError (encode i) = some .noInit ∧ s.issue (encode i) = rejected s 0x04)) ∧
  (∀ s t : State, step s = .next t → ¬ resetsNext s → s.initd = true → t.initd = true)

/-- R59: on an idle initialised block RDBLK and BMIX are accepted exactly when OFF + 16 is at most
IBUF_BYTES, and TAIL exactly when OFF + CNT is, in exact arithmetic; otherwise the code is E_RANGE. -/
def Obligations.RangeCheckIsExact : Prop :=
  ∀ (s : State) (off cnt : Nat), s.inflight = none → s.initd = true → off < 2 ^ 32 → cnt < 16 →
    s.issueError (encode (.rdblk off)) = (if off + 16 ≤ s.params.ibufBytes then none else some .range) ∧
    s.issueError (encode (.bmix off)) = (if off + 16 ≤ s.params.ibufBytes then none else some .range) ∧
    s.issueError (encode (.tail off cnt)) = (if off + cnt ≤ s.params.ibufBytes then none else some .range)

/-- The model's `exec` on a block with nothing in flight (log entry 5) is the life of R53 in one: issue,
and then the Complete step of what was accepted. -/
def Obligations.IssueThenCompleteIsExec : Prop :=
  ∀ (s : State) (i : Instr), s.inflight = none → i.wellFormed = true →
    (s.issue (encode i)).complete = exec i s

/-- R85: from every state of the invariant, a command in flight completes, and no error occurs at
completion. -/
def Obligations.AcceptedCommandCompletesWithoutError : Prop :=
  ∀ (s : State) (f : InFlight), s.Inv → s.inflight = some f →
    ∃ t, s.complete = .next t ∧ t.inflight = none ∧ t.err = s.err ∧ t.errcode = s.errcode

/-- R53, R108: whatever access the host performs while a command is in flight, the command's effect is the
same: the same hash state, DONE, INITD and IBUF after it. -/
def Obligations.HostCannotDisturbTheCommand : Prop :=
  ∀ (s : State) (f : InFlight) (i : Instr) (a : Access), s.inflight = some f →
    decode f.lcmd = .ok i →
    ∃ t u, exec i s = .next t ∧ exec i (s.perform a).1 = .next u ∧
      u.hash = t.hash ∧ u.done = t.done ∧ u.initd = t.initd ∧
      (∀ j : Nat, u.ibufByte j = t.ibufByte j)

/-! ## Registers and the bus -/

/-- R22: the layout of STATUS, idle or busy; the read changes nothing. -/
def Obligations.StatusReadsItsFields : Prop :=
  ∀ s : State, ∃ w : Word, s.perform (.read 0x010 8) = (s, .data w) ∧
    w.getLsbD 0 = s.inflight.isSome ∧ w.getLsbD 1 = s.err ∧ w.getLsbD 2 = s.done ∧
    w.getLsbD 3 = s.initd ∧ w.extractLsb' 4 4 = 0 ∧ w.extractLsb' 8 8 = s.errcode ∧
    w.extractLsb' 16 48 = 0

/-- R23: a STATUS write clears ERR and ERRCODE if bit 1 is set, and does nothing else, idle or busy. -/
def Obligations.StatusWriteClearsTheError : Prop :=
  ∀ (s : State) (v : Word),
    (v.getLsbD 1 = true →
      s.perform (.write 0x010 8 v) = ({ s with err := false, errcode := 0 }, .written)) ∧
    (v.getLsbD 1 = false → s.perform (.write 0x010 8 v) = (s, .written))

/-- R25: CFG reports the parameters, ignores writes, and never changes. -/
def Obligations.CfgReportsTheParameters : Prop :=
  (∀ s : State, s.params.wf → ∃ w : Word, s.perform (.read 0x008 8) = (s, .data w) ∧
    w.getLsbD 0 = s.params.mask32Quirk ∧ w.getLsbD 1 = s.params.rotQuirk ∧
    w.extractLsb' 2 30 = 0 ∧ (w.extractLsb' 32 32).toNat = s.params.ibufBytes) ∧
  (∀ (s : State) (v : Word), s.perform (.write 0x008 8 v) = (s, .written)) ∧
  (∀ s t : State, step s = .next t → t.params = s.params)

/-- R26: ID always reads the constant, and a write to it is ignored. -/
def Obligations.IdIsConstant : Prop :=
  ∀ (s : State) (v : Word), s.perform (.read 0x000 8) = (s, .data 0x4D55524D33583634) ∧
    s.perform (.write 0x000 8 v) = (s, .written)

/-- R27, R74: OUT32 reads the high 32 bits of H1, zero-extended, while the block is idle, and ignores
writes. -/
def Obligations.OutIsTheHighHalf : Prop :=
  ∀ s : State,
    (s.inflight = none → ∃ w : Word, s.perform (.read 0x060 8) = (s, .data w) ∧
      w.extractLsb' 0 32 = s.hash.h1.extractLsb' 32 32 ∧ w.extractLsb' 32 32 = 0) ∧
    (∀ v : Word, s.perform (.write 0x060 8 v) = (s, .written))

/-- R20: OPA and OPB are written and read back, idle or busy, and a write to one changes nothing else. -/
def Obligations.OperandRegistersStore : Prop :=
  ∀ (s : State) (v : Word),
    s.perform (.write 0x020 8 v) = ({ s with opa := v }, .written) ∧
    s.perform (.write 0x028 8 v) = ({ s with opb := v }, .written) ∧
    s.perform (.read 0x020 8) = (s, .data s.opa) ∧
    s.perform (.read 0x028 8) = (s, .data s.opb)

/-- R17, R18, R19, R34, R35: while the block is idle the hash registers read their values at R34's offsets;
a write to one is ignored, idle or busy. -/
def Obligations.HashRegistersReadOnly : Prop :=
  ∀ s : State,
    (s.inflight = none →
      s.perform (.read 0x030 8) = (s, .data s.hash.h1) ∧
      s.perform (.read 0x038 8) = (s, .data s.hash.h2) ∧
      s.perform (.read 0x040 8) = (s, .data s.hash.k1) ∧
      s.perform (.read 0x048 8) = (s, .data s.hash.k2) ∧
      s.perform (.read 0x050 8) = (s, .data s.hash.c1) ∧
      s.perform (.read 0x058 8) = (s, .data s.hash.c2)) ∧
    (∀ v : Word, ∀ offset ∈ [0x030#13, 0x038#13, 0x040#13, 0x048#13, 0x050#13, 0x058#13],
      s.perform (.write offset 8 v) = (s, .written))

/-- R106: a read of a hash register or OUT32 while BUSY = 1 returns some value and changes no state of the
block (the model counts the draw, log entry 3); STATUS, ID, CFG, CMD, OPA, OPB and IBUF read as they do
otherwise. -/
def Obligations.BusyReadsAreOpenOrExact : Prop :=
  ∀ (s : State) (f : InFlight), s.inflight = some f →
    (∀ offset ∈ [0x030#13, 0x038#13, 0x040#13, 0x048#13, 0x050#13, 0x058#13, 0x060#13],
      ∃ v, s.perform (.read offset 8) = ({ s with draws := s.draws + 1 }, .data v)) ∧
    (∃ w : Word, s.perform (.read 0x010 8) = (s, .data w) ∧ w.getLsbD 0 = true ∧
      w.getLsbD 2 = s.done ∧ w.getLsbD 3 = s.initd) ∧
    s.perform (.read 0x018 8) = (s, .data 0) ∧
    (∀ (offset : BitVec 13) (width : Nat),
      (offset ∈ [0x000#13, 0x008#13, 0x018#13, 0x020#13, 0x028#13] ∨ 0x1000 ≤ offset.toNat) →
      (s.perform (.read offset width)).1 = s ∧
      (s.perform (.read offset width)).2 =
        ({ s with inflight := none }.perform (.read offset width)).2)

/-- R36: a correctly sized and aligned access to a reserved offset reads 0 or is ignored. -/
def Obligations.ReservedOffsetsReadZero : Prop :=
  ∀ (s : State) (offset : BitVec 13), 0x068 ≤ offset.toNat → offset.toNat < 0x1000 →
    offset.toNat % 8 = 0 →
    s.perform (.read offset 8) = (s, .data 0) ∧
    ∀ v : Word, s.perform (.write offset 8 v) = (s, .written)

/-- R92: exactly these accesses get a bus error, and a bus error changes nothing. -/
def Obligations.BusErrorsAreExactlyThese : Prop :=
  ∀ s : State, s.params.wf → ∀ (offset : BitVec 13) (width : Nat) (v : Word),
    let misfit : Prop :=
      (offset.toNat < 0x1000 ∧ (width ≠ 8 ∨ offset.toNat % 8 ≠ 0)) ∨
      (0x1000 ≤ offset.toNat ∧ (width ∉ [1, 2, 4, 8] ∨ offset.toNat % width ≠ 0))
    ((s.perform (.read offset width)).2 = .busError ↔ misfit) ∧
    ((s.perform (.write offset width v)).2 = .busError ↔
      misfit ∨ (s.inflight ≠ none ∧ 0x1000 ≤ offset.toNat ∧
        offset.toNat < 0x1000 + s.params.ibufBytes)) ∧
    (misfit → (s.perform (.read offset width)).1 = s) ∧
    ((s.perform (.write offset width v)).2 = .busError → (s.perform (.write offset width v)).1 = s)

/-- R33, R37: a correct access to the buffer region. Inside IBUF a read returns the bytes in little-endian
lanes, the lanes beyond the width 0; a write to an idle block stores the low bytes of its data at the
access's own indices and changes nothing else; beyond IBUF a read returns 0 and a write is ignored. -/
def Obligations.BufferAccessMovesItsBytes : Prop :=
  ∀ (s : State) (offset : BitVec 13) (width : Nat) (v : Word), 0x1000 ≤ offset.toNat →
    width ∈ [1, 2, 4, 8] → offset.toNat % width = 0 →
    (offset.toNat - 0x1000 + width ≤ s.params.ibufBytes →
      (∃ d : Word, s.perform (.read offset width) = (s, .data d) ∧
        ∀ k < 8, d.extractLsb' (8 * k) 8 =
          (if k < width then s.ibufByte (offset.toNat - 0x1000 + k) else 0)) ∧
      (s.inflight = none →
        ∃ m : List Host.Cell, s.perform (.write offset width v) = ({ s with ibuf := m }, .written) ∧
          (∀ k < width, { s with ibuf := m }.ibufByte (offset.toNat - 0x1000 + k) =
            v.extractLsb' (8 * k) 8) ∧
          (∀ j : Nat, (j < offset.toNat - 0x1000 ∨ offset.toNat - 0x1000 + width ≤ j) →
            { s with ibuf := m }.ibufByte j = s.ibufByte j))) ∧
    (s.params.ibufBytes < offset.toNat - 0x1000 + width →
      s.perform (.read offset width) = (s, .data 0) ∧
      s.perform (.write offset width v) = (s, .written))

/-- R107: while BUSY = 1 a correct write into IBUF gets a bus error and has no effect, and an IBUF read
returns the stored bytes. -/
def Obligations.BusyBlockKeepsItsBuffer : Prop :=
  ∀ (s : State) (f : InFlight) (offset : BitVec 13) (width : Nat) (v : Word), s.inflight = some f →
    0x1000 ≤ offset.toNat → width ∈ [1, 2, 4, 8] → offset.toNat % width = 0 →
    offset.toNat - 0x1000 + width ≤ s.params.ibufBytes →
    s.perform (.write offset width v) = (s, .busError) ∧
    ∃ d : Word, s.perform (.read offset width) = (s, .data d) ∧
      ∀ k < width, d.extractLsb' (8 * k) 8 = s.ibufByte (offset.toNat - 0x1000 + k)

/-- R41: no read changes the block (the model's draw counter apart, log entry 3); on an idle block it
changes nothing at all. -/
def Obligations.ReadsHaveNoSideEffect : Prop :=
  ∀ (s : State) (offset : BitVec 13) (width : Nat),
    (∃ n, (s.perform (.read offset width)).1 = { s with draws := n }) ∧
    (s.inflight = none → (s.perform (.read offset width)).1 = s)

/-! ## Reset and whole-machine rules -/

/-- R30: the values the spec gives for reset. Two clauses are the model's choices: what CFG reads, since the
parameter values at reset are (log entry 1: R6 leaves IBUF_BYTES open, and gives 4096 unless the integrator
chooses otherwise), and that no IBUF byte counts as written, its form of R30's "unspecified" (log entry 2). -/
def Obligations.ResetGivesTheStatedValues : Prop :=
  State.reset.hash = { h1 := 0, h2 := 0, k1 := 0, k2 := 0, c1 := 0, c2 := 0 } ∧
  State.reset.opa = 0 ∧ State.reset.opb = 0 ∧ State.reset.perform (.read 0x010 8) =
    (State.reset, .data 0) ∧ State.reset.inflight = none ∧ State.reset.ibuf = [] ∧
  State.reset.perform (.read 0x008 8) = (State.reset, .data 0x0000100000000003) ∧
  State.reset.perform (.read 0x000 8) = (State.reset, .data 0x4D55524D33583634)

/-- R30, R102: reset in any state, with or without an access under way: the registers take R30's values, the
command in flight is abandoned, and the parameters stay. Two clauses are the model's choices: that no IBUF
byte counts as written is its form of R30's and R102's "unspecified" (log entry 2), and that the later events
stay to come is its inbox (log entry 4). -/
def Obligations.ResetAbandonsEverything : Prop :=
  ∀ (s : State) (u : Option Access) (rest : List Event), s.inbox = .reset u :: rest →
    ∃ t, step s = .next t ∧
      t.hash = { h1 := 0, h2 := 0, k1 := 0, k2 := 0, c1 := 0, c2 := 0 } ∧
      t.opa = 0 ∧ t.opb = 0 ∧ t.inflight = none ∧ t.err = false ∧ t.errcode = 0 ∧
      t.done = false ∧ t.initd = false ∧ t.ibuf = [] ∧ t.params = s.params ∧ t.inbox = rest

/-- The invariant holds after reset, with the parameter values the model chose there (log entry 1). -/
def Obligations.ResetMeetsTheInvariant : Prop := State.reset.Inv

/-- R6, R22, R28, R30, R52, R86, R88: every step keeps the invariant: legal parameters, IBUF in canonical form
and within IBUF_BYTES, ERRCODE 0 with ERR = 0 and one of 1 to 5 with ERR = 1, only checked commands in
flight, and zeros until an INIT completes. IBUF's canonical form is the model's, log entry 2. -/
def Obligations.EveryStepKeepsTheInvariant : Prop :=
  ∀ s t : State, s.Inv → step s = .next t → t.Inv

/-- The model's form of R109's weak fairness, on which R44's barrier rests: once the coming events have
happened, one more step leaves the block with nothing in flight. That an empty inbox makes Complete fire in
one step is the model's choice, log entry 4. -/
def Obligations.BlockBecomesIdle : Prop :=
  ∀ s : State, ∃ t, steps (s.inbox.length + 1) s = .next t ∧ t.idle

/-! ## The host's lines and procedures -/

/-- R54: the words of the command lines. For a well-formed command the line's formula is its encoding, and
decodes to it; a CNT above 15 spills into RSV, so the block rejects the word with E_RSVD. -/
def Obligations.CommandLineWordsFollowTheirFormulas : Prop :=
  (∀ i : Instr, i.wellFormed = true → lineWord i = encode i ∧ decode (lineWord i) = .ok i) ∧
  ∀ off cnt : Nat, 16 ≤ cnt → cnt < 2 ^ 24 → decode (lineWord (.tail off cnt)) = .error .rsvd

/-- R54, R109: `wait` polls STATUS until BUSY reads 0. From any state and at any pace it ends; by then what was
in flight has completed and nothing else has happened; every poll but the last read BUSY = 1, and the last
read BUSY = 0. The pace and the list of responses are the model's, log entries 8 and 10. -/
def Obligations.WaitPollsUntilIdle : Prop :=
  ∀ (s : State) (pace : List Bool), ∃ (t : State) (k : Nat) (rest : List Bool), s.complete = .next t ∧
    runLines [.wait] pace s = .next
      { block :=
          { t with
            inbox := []
            outbox := s.outbox ++ List.replicate k (.data s.statusWord) ++ [.data t.statusWord] }
        pace := rest } ∧
    (0 < k → s.statusWord.getLsbD 0 = true) ∧ t.statusWord.getLsbD 0 = false

/-- R54, R92: a store line past the 8 KiB window is nothing the block sees (log entry 14); one inside it is the
host's access at offset 0x1000 + i, on an idle block. `stb` is the store of one byte. -/
def Obligations.StoreLineReachesTheBuffer : Prop :=
  ∀ (s : State) (pace : List Bool) (i width : Nat) (v : Word), s.inflight = none →
    (0x1000 ≤ i → runLines [.stw i width v] pace s =
      .next { block := { s with inbox := [] }, pace := pace }) ∧
    (i < 0x1000 → runLines [.stw i width v] pace s = .next
      { block :=
          { (s.perform (.write (BitVec.ofNat 13 (0x1000 + i)) width v)).1 with
            inbox := []
            outbox := s.outbox ++ [(s.perform (.write (BitVec.ofNat 13 (0x1000 + i)) width v)).2] }
        pace := pace.tail }) ∧
    ∀ b : Byte, runLines [.stb i b] pace s = runLines [.stw i 1 (b.setWidth 64)] pace s

/-- R80, R81, R82: run alone, in any state of the block and at any pace, the procedures for words return the
digest that the source's algorithm gives for the words, the length and the seed, in the three widths; no words
are an invalid argument. The source's algorithm is that of the spec's block, with constants and readings that
are unaudited (log entry 11). The pace is the model's form of R32's open order and R109's fairness, log
entry 10. -/
def Obligations.WordProceduresGiveTheDigest : Prop :=
  ∀ (s : State) (pace : List Bool) (w : List Word) (seed : BitVec 32),
    (w = [] →
      hash128w w seed pace s = .next { host := { block := s, pace := pace }, result := .invalidArgument } ∧
      hash64w w seed pace s = .next { host := { block := s, pace := pace }, result := .invalidArgument } ∧
      hash32w w seed pace s = .next { host := { block := s, pace := pace }, result := .invalidArgument }) ∧
    (w ≠ [] → ∃ h : HostRun,
      hash128w w seed pace s = .next { host := h, result := .digest (digestWords s.params w seed) } ∧
      hash64w w seed pace s = .next { host := h, result := .digest (digestWords s.params w seed).1 } ∧
      hash32w w seed pace s =
        .next { host := h, result := .digest ((digestWords s.params w seed).1.extractLsb' 32 32) })

/-- R76, R77, R78, R79: run alone, in any state of the block and at any pace, the procedures for bytes return
the digest that the source's algorithm gives for the bytes, the length and the seed, in the three widths,
whatever size IBUF has. The source's algorithm is that of the spec's block, with constants and readings that
are unaudited (log entry 11). The pace is log entry 10, the read of OUT32 log entry 17, and the length term `n`
mod 2^64 is the model's choice for a length of 2^64 or more, log entry 15. -/
def Obligations.ByteProceduresGiveTheDigest : Prop :=
  ∀ (s : State) (pace : List Bool) (b : List Byte) (seed : BitVec 32), s.params.wf →
    ∃ h h' : HostRun,
      hash128b b seed pace s = .next { host := h, result := .digest (digestBytes s.params b seed) } ∧
      hash64b b seed pace s = .next { host := h, result := .digest (digestBytes s.params b seed).1 } ∧
      hash32b b seed pace s =
        .next { host := h', result := .digest ((digestBytes s.params b seed).1.extractLsb' 32 32) }

/-- The run after these words were read, one at a time, and nothing else happened. -/
def afterReading (h : HostRun) (ws : List Word) : HostRun :=
  { block := { h.block with inbox := [], outbox := h.block.outbox ++ ws.map .data }
    pace := h.pace.drop ws.length }

/-- R76, R79, R80, R83: after its last line a procedure reads STATUS. With ERR = 1 or DONE = 0 it returns FAIL and
reads nothing more; else it reads H1 and then H2, or OUT32 alone, and returns what it read. That HASH32B reads
OUT32 in the place of H1 and H2 is log entry 17; the pace and the list of responses are log entries 10 and 8. -/
def Obligations.ProceduresJudgeStatusFirst : Prop :=
  ∀ (lines : List HostLine) (pace : List Bool) (s : State) (h : HostRun),
    runLines lines pace s = .next h → h.block.inflight = none →
    ((h.block.err = true ∨ h.block.done = false) →
      runAndJudge lines HostRun.returnPair pace s =
        .next { host := afterReading h [h.block.statusWord], result := .fail } ∧
      runAndJudge lines HostRun.returnHigh pace s =
        .next { host := afterReading h [h.block.statusWord], result := .fail }) ∧
    (h.block.err = false → h.block.done = true →
      runAndJudge lines HostRun.returnPair pace s =
        .next
          { host := afterReading h [h.block.statusWord, h.block.hash.h1, h.block.hash.h2]
            result := .digest (h.block.hash.h1, h.block.hash.h2) } ∧
      runAndJudge lines HostRun.returnHigh pace s =
        .next
          { host := afterReading h [h.block.statusWord, (h.block.hash.h1.extractLsb' 32 32).setWidth 64]
            result := .digest (h.block.hash.h1.extractLsb' 32 32) })
end

