-- ==== Sys2Proof/Laws/State.lean ====
section
/-! SUPPORT. One lemma per field for each named update of State, so that no proof unfolds one. -/

namespace Sys2Proof.Machine


@[simp] theorem State.setIbufByte_params (s : State) (i : Nat) (b : Byte) : (s.setIbufByte i b).params = s.params := rfl
@[simp] theorem State.setIbufByte_hash (s : State) (i : Nat) (b : Byte) : (s.setIbufByte i b).hash = s.hash := rfl
@[simp] theorem State.setIbufByte_opa (s : State) (i : Nat) (b : Byte) : (s.setIbufByte i b).opa = s.opa := rfl
@[simp] theorem State.setIbufByte_opb (s : State) (i : Nat) (b : Byte) : (s.setIbufByte i b).opb = s.opb := rfl
@[simp] theorem State.setIbufByte_inflight (s : State) (i : Nat) (b : Byte) : (s.setIbufByte i b).inflight = s.inflight := rfl
@[simp] theorem State.setIbufByte_err (s : State) (i : Nat) (b : Byte) : (s.setIbufByte i b).err = s.err := rfl
@[simp] theorem State.setIbufByte_errcode (s : State) (i : Nat) (b : Byte) : (s.setIbufByte i b).errcode = s.errcode := rfl
@[simp] theorem State.setIbufByte_done (s : State) (i : Nat) (b : Byte) : (s.setIbufByte i b).done = s.done := rfl
@[simp] theorem State.setIbufByte_initd (s : State) (i : Nat) (b : Byte) : (s.setIbufByte i b).initd = s.initd := rfl
@[simp] theorem State.setIbufByte_ibuf (s : State) (i : Nat) (b : Byte) : (s.setIbufByte i b).ibuf = Memory.set s.ibuf i b := rfl
@[simp] theorem State.setIbufByte_inbox (s : State) (i : Nat) (b : Byte) : (s.setIbufByte i b).inbox = s.inbox := rfl
@[simp] theorem State.setIbufByte_outbox (s : State) (i : Nat) (b : Byte) : (s.setIbufByte i b).outbox = s.outbox := rfl
@[simp] theorem State.setIbufByte_epoch (s : State) (i : Nat) (b : Byte) : (s.setIbufByte i b).epoch = s.epoch := rfl
@[simp] theorem State.setIbufByte_draws (s : State) (i : Nat) (b : Byte) : (s.setIbufByte i b).draws = s.draws := rfl

@[simp] theorem State.accept_params (s : State) (v : Word) : (s.accept v).params = s.params := rfl
@[simp] theorem State.accept_hash (s : State) (v : Word) : (s.accept v).hash = s.hash := rfl
@[simp] theorem State.accept_opa (s : State) (v : Word) : (s.accept v).opa = s.opa := rfl
@[simp] theorem State.accept_opb (s : State) (v : Word) : (s.accept v).opb = s.opb := rfl
@[simp] theorem State.accept_inflight (s : State) (v : Word) : (s.accept v).inflight = some { lcmd := v, lopa := s.opa, lopb := s.opb } := rfl
@[simp] theorem State.accept_err (s : State) (v : Word) : (s.accept v).err = s.err := rfl
@[simp] theorem State.accept_errcode (s : State) (v : Word) : (s.accept v).errcode = s.errcode := rfl
@[simp] theorem State.accept_done (s : State) (v : Word) : (s.accept v).done = s.done := rfl
@[simp] theorem State.accept_initd (s : State) (v : Word) : (s.accept v).initd = s.initd := rfl
@[simp] theorem State.accept_ibuf (s : State) (v : Word) : (s.accept v).ibuf = s.ibuf := rfl
@[simp] theorem State.accept_inbox (s : State) (v : Word) : (s.accept v).inbox = s.inbox := rfl
@[simp] theorem State.accept_outbox (s : State) (v : Word) : (s.accept v).outbox = s.outbox := rfl
@[simp] theorem State.accept_epoch (s : State) (v : Word) : (s.accept v).epoch = s.epoch := rfl
@[simp] theorem State.accept_draws (s : State) (v : Word) : (s.accept v).draws = s.draws := rfl

@[simp] theorem State.retire_params (s : State) : (s.retire).params = s.params := rfl
@[simp] theorem State.retire_hash (s : State) : (s.retire).hash = s.hash := rfl
@[simp] theorem State.retire_opa (s : State) : (s.retire).opa = s.opa := rfl
@[simp] theorem State.retire_opb (s : State) : (s.retire).opb = s.opb := rfl
@[simp] theorem State.retire_inflight (s : State) : (s.retire).inflight = none := rfl
@[simp] theorem State.retire_err (s : State) : (s.retire).err = s.err := rfl
@[simp] theorem State.retire_errcode (s : State) : (s.retire).errcode = s.errcode := rfl
@[simp] theorem State.retire_done (s : State) : (s.retire).done = s.done := rfl
@[simp] theorem State.retire_initd (s : State) : (s.retire).initd = s.initd := rfl
@[simp] theorem State.retire_ibuf (s : State) : (s.retire).ibuf = s.ibuf := rfl
@[simp] theorem State.retire_inbox (s : State) : (s.retire).inbox = s.inbox := rfl
@[simp] theorem State.retire_outbox (s : State) : (s.retire).outbox = s.outbox := rfl
@[simp] theorem State.retire_epoch (s : State) : (s.retire).epoch = s.epoch := rfl
@[simp] theorem State.retire_draws (s : State) : (s.retire).draws = s.draws := rfl

@[simp] theorem State.respond_params (s : State) (r : Response) : (s.respond r).params = s.params := rfl
@[simp] theorem State.respond_hash (s : State) (r : Response) : (s.respond r).hash = s.hash := rfl
@[simp] theorem State.respond_opa (s : State) (r : Response) : (s.respond r).opa = s.opa := rfl
@[simp] theorem State.respond_opb (s : State) (r : Response) : (s.respond r).opb = s.opb := rfl
@[simp] theorem State.respond_inflight (s : State) (r : Response) : (s.respond r).inflight = s.inflight := rfl
@[simp] theorem State.respond_err (s : State) (r : Response) : (s.respond r).err = s.err := rfl
@[simp] theorem State.respond_errcode (s : State) (r : Response) : (s.respond r).errcode = s.errcode := rfl
@[simp] theorem State.respond_done (s : State) (r : Response) : (s.respond r).done = s.done := rfl
@[simp] theorem State.respond_initd (s : State) (r : Response) : (s.respond r).initd = s.initd := rfl
@[simp] theorem State.respond_ibuf (s : State) (r : Response) : (s.respond r).ibuf = s.ibuf := rfl
@[simp] theorem State.respond_inbox (s : State) (r : Response) : (s.respond r).inbox = s.inbox := rfl
@[simp] theorem State.respond_outbox (s : State) (r : Response) : (s.respond r).outbox = s.outbox ++ [r] := rfl
@[simp] theorem State.respond_epoch (s : State) (r : Response) : (s.respond r).epoch = s.epoch := rfl
@[simp] theorem State.respond_draws (s : State) (r : Response) : (s.respond r).draws = s.draws := rfl

@[simp] theorem State.reject_params (s : State) (e : CmdError) : (s.reject e).params = s.params := by
  unfold State.reject; split <;> simp_all
@[simp] theorem State.reject_hash (s : State) (e : CmdError) : (s.reject e).hash = s.hash := by
  unfold State.reject; split <;> simp_all
@[simp] theorem State.reject_opa (s : State) (e : CmdError) : (s.reject e).opa = s.opa := by
  unfold State.reject; split <;> simp_all
@[simp] theorem State.reject_opb (s : State) (e : CmdError) : (s.reject e).opb = s.opb := by
  unfold State.reject; split <;> simp_all
@[simp] theorem State.reject_inflight (s : State) (e : CmdError) : (s.reject e).inflight = s.inflight := by
  unfold State.reject; split <;> simp_all
@[simp] theorem State.reject_err (s : State) (e : CmdError) : (s.reject e).err = true := by
  unfold State.reject; split <;> simp_all
@[simp] theorem State.reject_errcode (s : State) (e : CmdError) : (s.reject e).errcode = if s.err then s.errcode else e.code := by
  unfold State.reject; split <;> simp_all
@[simp] theorem State.reject_done (s : State) (e : CmdError) : (s.reject e).done = s.done := by
  unfold State.reject; split <;> simp_all
@[simp] theorem State.reject_initd (s : State) (e : CmdError) : (s.reject e).initd = s.initd := by
  unfold State.reject; split <;> simp_all
@[simp] theorem State.reject_ibuf (s : State) (e : CmdError) : (s.reject e).ibuf = s.ibuf := by
  unfold State.reject; split <;> simp_all
@[simp] theorem State.reject_inbox (s : State) (e : CmdError) : (s.reject e).inbox = s.inbox := by
  unfold State.reject; split <;> simp_all
@[simp] theorem State.reject_outbox (s : State) (e : CmdError) : (s.reject e).outbox = s.outbox := by
  unfold State.reject; split <;> simp_all
@[simp] theorem State.reject_epoch (s : State) (e : CmdError) : (s.reject e).epoch = s.epoch := by
  unfold State.reject; split <;> simp_all
@[simp] theorem State.reject_draws (s : State) (e : CmdError) : (s.reject e).draws = s.draws := by
  unfold State.reject; split <;> simp_all

@[simp] theorem State.writeStatus_params (s : State) (v : Word) : (s.writeStatus v).params = s.params := by
  unfold State.writeStatus; split <;> simp_all
@[simp] theorem State.writeStatus_hash (s : State) (v : Word) : (s.writeStatus v).hash = s.hash := by
  unfold State.writeStatus; split <;> simp_all
@[simp] theorem State.writeStatus_opa (s : State) (v : Word) : (s.writeStatus v).opa = s.opa := by
  unfold State.writeStatus; split <;> simp_all
@[simp] theorem State.writeStatus_opb (s : State) (v : Word) : (s.writeStatus v).opb = s.opb := by
  unfold State.writeStatus; split <;> simp_all
@[simp] theorem State.writeStatus_inflight (s : State) (v : Word) : (s.writeStatus v).inflight = s.inflight := by
  unfold State.writeStatus; split <;> simp_all
@[simp] theorem State.writeStatus_err (s : State) (v : Word) : (s.writeStatus v).err = (s.err && !v.getLsbD 1) := by
  unfold State.writeStatus; split <;> simp_all
@[simp] theorem State.writeStatus_errcode (s : State) (v : Word) : (s.writeStatus v).errcode = if v.getLsbD 1 then 0 else s.errcode := by
  unfold State.writeStatus; split <;> simp_all
@[simp] theorem State.writeStatus_done (s : State) (v : Word) : (s.writeStatus v).done = s.done := by
  unfold State.writeStatus; split <;> simp_all
@[simp] theorem State.writeStatus_initd (s : State) (v : Word) : (s.writeStatus v).initd = s.initd := by
  unfold State.writeStatus; split <;> simp_all
@[simp] theorem State.writeStatus_ibuf (s : State) (v : Word) : (s.writeStatus v).ibuf = s.ibuf := by
  unfold State.writeStatus; split <;> simp_all
@[simp] theorem State.writeStatus_inbox (s : State) (v : Word) : (s.writeStatus v).inbox = s.inbox := by
  unfold State.writeStatus; split <;> simp_all
@[simp] theorem State.writeStatus_outbox (s : State) (v : Word) : (s.writeStatus v).outbox = s.outbox := by
  unfold State.writeStatus; split <;> simp_all
@[simp] theorem State.writeStatus_epoch (s : State) (v : Word) : (s.writeStatus v).epoch = s.epoch := by
  unfold State.writeStatus; split <;> simp_all
@[simp] theorem State.writeStatus_draws (s : State) (v : Word) : (s.writeStatus v).draws = s.draws := by
  unfold State.writeStatus; split <;> simp_all

@[simp] theorem State.afterReset_params (s : State) : (s.afterReset).params = s.params := rfl
@[simp] theorem State.afterReset_hash (s : State) : (s.afterReset).hash = { h1 := 0, h2 := 0, k1 := 0, k2 := 0, c1 := 0, c2 := 0 } := rfl
@[simp] theorem State.afterReset_opa (s : State) : (s.afterReset).opa = 0 := rfl
@[simp] theorem State.afterReset_opb (s : State) : (s.afterReset).opb = 0 := rfl
@[simp] theorem State.afterReset_inflight (s : State) : (s.afterReset).inflight = none := rfl
@[simp] theorem State.afterReset_err (s : State) : (s.afterReset).err = false := rfl
@[simp] theorem State.afterReset_errcode (s : State) : (s.afterReset).errcode = 0 := rfl
@[simp] theorem State.afterReset_done (s : State) : (s.afterReset).done = false := rfl
@[simp] theorem State.afterReset_initd (s : State) : (s.afterReset).initd = false := rfl
@[simp] theorem State.afterReset_ibuf (s : State) : (s.afterReset).ibuf = [] := rfl
@[simp] theorem State.afterReset_inbox (s : State) : (s.afterReset).inbox = s.inbox := rfl
@[simp] theorem State.afterReset_outbox (s : State) : (s.afterReset).outbox = s.outbox := rfl
@[simp] theorem State.afterReset_epoch (s : State) : (s.afterReset).epoch = s.epoch + 1 := rfl
@[simp] theorem State.afterReset_draws (s : State) : (s.afterReset).draws = s.draws := rfl

@[simp] theorem State.withInFlight_params (s : State) (v : Word) : (s.withInFlight v).params = s.params := rfl
@[simp] theorem State.withInFlight_hash (s : State) (v : Word) : (s.withInFlight v).hash = s.hash := rfl
@[simp] theorem State.withInFlight_opa (s : State) (v : Word) : (s.withInFlight v).opa = s.opa := rfl
@[simp] theorem State.withInFlight_opb (s : State) (v : Word) : (s.withInFlight v).opb = s.opb := rfl
@[simp] theorem State.withInFlight_inflight (s : State) (v : Word) : (s.withInFlight v).inflight = some { lcmd := v, lopa := s.opa, lopb := s.opb } := rfl
@[simp] theorem State.withInFlight_err (s : State) (v : Word) : (s.withInFlight v).err = s.err := rfl
@[simp] theorem State.withInFlight_errcode (s : State) (v : Word) : (s.withInFlight v).errcode = s.errcode := rfl
@[simp] theorem State.withInFlight_done (s : State) (v : Word) : (s.withInFlight v).done = s.done := rfl
@[simp] theorem State.withInFlight_initd (s : State) (v : Word) : (s.withInFlight v).initd = s.initd := rfl
@[simp] theorem State.withInFlight_ibuf (s : State) (v : Word) : (s.withInFlight v).ibuf = s.ibuf := rfl
@[simp] theorem State.withInFlight_inbox (s : State) (v : Word) : (s.withInFlight v).inbox = .complete :: s.inbox := rfl
@[simp] theorem State.withInFlight_outbox (s : State) (v : Word) : (s.withInFlight v).outbox = s.outbox := rfl
@[simp] theorem State.withInFlight_epoch (s : State) (v : Word) : (s.withInFlight v).epoch = s.epoch := rfl
@[simp] theorem State.withInFlight_draws (s : State) (v : Word) : (s.withInFlight v).draws = s.draws := rfl

/-! What is computed from the fields. -/

@[simp] theorem State.busy_eq_false (s : State) : s.busy = false ↔ s.inflight = none := by
  simp [State.busy]

theorem State.busy_eq_true (s : State) : s.busy = true ↔ ∃ f, s.inflight = some f := by
  simp [State.busy, Option.isSome_iff_exists]

theorem State.ibufByte_congr {s t : State} (hm : t.ibuf = s.ibuf) (he : t.epoch = s.epoch) (i : Nat) :
    t.ibufByte i = s.ibufByte i := by
  simp [State.ibufByte, hm, he]

theorem State.commandError_congr {s t : State} (hp : t.params = s.params) (hi : t.initd = s.initd)
    (i : Instr) : t.commandError i = s.commandError i := by
  simp [State.commandError, hp, hi]

end Sys2Proof.Machine
end

