-- ==== Sys2Proof/Laws/Lifecycle.lean ====
section
/-! SUPPORT. What the shared operations of a command's life can do, each said once. -/

namespace Sys2Proof.Machine

/-- The hash state a command leaves, from the operands it runs with and the state it reads. It is
irreducible so that no comparison of states unfolds a round: its value is in the lemmas after it. -/
@[irreducible] def effectOf (s : State) : Instr → InFlight → HashState → HashState
  | .nop => fun _ h => h
  | .init seed => fun _ _ => initHash seed
  | .ldk => fun f h => { h with k1 := f.lopa, k2 := f.lopb }
  | .kxor => fun f h => { h with k1 := h.k1 ^^^ f.lopa, k2 := h.k2 ^^^ f.lopb }
  | .rdblk off => fun _ h => { h with k1 := s.getblock off, k2 := s.getblock (off + 8) }
  | .tail off cnt => fun _ h => xorTail (fun j => s.ibufByte (off + j)) cnt h
  | .mix => fun _ h => bmix64 s.params.rotQuirk h
  | .bmix off => fun _ h =>
    bmix64 s.params.rotQuirk { h with k1 := s.getblock off, k2 := s.getblock (off + 8) }
  | .wmix => fun f h => bmix64 s.params.rotQuirk { h with k1 := f.lopa, k2 := f.lopb }
  | .fin => fun f h => finalizeHash f.lopa h

@[simp] theorem effectOf_nop (s : State) (f : InFlight) (h : HashState) : effectOf s .nop f h = h := by
  unfold effectOf; rfl

@[simp] theorem effectOf_init (s : State) (seed : BitVec 32) (f : InFlight) (h : HashState) :
    effectOf s (.init seed) f h = initHash seed := by
  unfold effectOf; rfl

@[simp] theorem effectOf_ldk (s : State) (f : InFlight) (h : HashState) :
    effectOf s .ldk f h = { h with k1 := f.lopa, k2 := f.lopb } := by
  unfold effectOf; rfl

@[simp] theorem effectOf_kxor (s : State) (f : InFlight) (h : HashState) :
    effectOf s .kxor f h = { h with k1 := h.k1 ^^^ f.lopa, k2 := h.k2 ^^^ f.lopb } := by
  unfold effectOf; rfl

@[simp] theorem effectOf_rdblk (s : State) (off : Nat) (f : InFlight) (h : HashState) :
    effectOf s (.rdblk off) f h = { h with k1 := s.getblock off, k2 := s.getblock (off + 8) } := by
  unfold effectOf; rfl

@[simp] theorem effectOf_tail (s : State) (off cnt : Nat) (f : InFlight) (h : HashState) :
    effectOf s (.tail off cnt) f h = xorTail (fun j => s.ibufByte (off + j)) cnt h := by
  unfold effectOf; rfl

@[simp] theorem effectOf_mix (s : State) (f : InFlight) (h : HashState) :
    effectOf s .mix f h = bmix64 s.params.rotQuirk h := by
  unfold effectOf; rfl

@[simp] theorem effectOf_bmix (s : State) (off : Nat) (f : InFlight) (h : HashState) :
    effectOf s (.bmix off) f h =
      bmix64 s.params.rotQuirk { h with k1 := s.getblock off, k2 := s.getblock (off + 8) } := by
  unfold effectOf; rfl

@[simp] theorem effectOf_wmix (s : State) (f : InFlight) (h : HashState) :
    effectOf s .wmix f h = bmix64 s.params.rotQuirk { h with k1 := f.lopa, k2 := f.lopb } := by
  unfold effectOf; rfl

@[simp] theorem effectOf_fin (s : State) (f : InFlight) (h : HashState) :
    effectOf s .fin f h = finalizeHash f.lopa h := by
  unfold effectOf; rfl

/-- Every command is its effect run by the one shared operation. -/
theorem exec_eq_runCommand (i : Instr) (s : State) : exec i s = s.runCommand i (effectOf s i) := by
  unfold effectOf
  cases i <;> rfl

/-- A command's effect depends on the state through the parameters and the bytes of IBUF alone. -/
theorem effectOf_congr {s t : State} (hp : t.params = s.params)
    (hb : ∀ j : Nat, t.ibufByte j = s.ibufByte j) (i : Instr) : effectOf t i = effectOf s i := by
  have hg : t.getblock = s.getblock := by
    funext o
    simp [State.getblock, hp, hb]
  funext f h
  cases i <;> simp [hp, hb, hg]

/-- The operands a command runs with when nothing is in flight. -/
theorem State.latched_idle {s : State} (h : s.inflight = none) (i : Instr) :
    s.latched i = { lcmd := encode i, lopa := s.opa, lopb := s.opb } := by
  simp [State.latched, h]

/-- The operands a command in flight runs with. -/
theorem State.latched_inflight {s : State} {f : InFlight} (h : s.inflight = some f) (i : Instr) :
    s.latched i = f := by
  simp [State.latched, h]

/-- The state a command leaves when its own checks let it run. -/
def State.ran (s : State) (i : Instr) : State :=
  { s with
    hash := effectOf s i (s.latched i) s.hash
    done := doneAfter i s.done
    initd := initdAfter i s.initd
    inflight := none }

theorem State.ran_hash (s : State) (i : Instr) :
    (s.ran i).hash = effectOf s i (s.latched i) s.hash := rfl

@[simp] theorem State.ran_done (s : State) (i : Instr) : (s.ran i).done = doneAfter i s.done := (rfl)

@[simp] theorem State.ran_initd (s : State) (i : Instr) : (s.ran i).initd = initdAfter i s.initd := (rfl)

@[simp] theorem State.ran_inflight (s : State) (i : Instr) : (s.ran i).inflight = none := (rfl)

@[simp] theorem State.ran_params (s : State) (i : Instr) : (s.ran i).params = s.params := (rfl)

@[simp] theorem State.ran_opa (s : State) (i : Instr) : (s.ran i).opa = s.opa := (rfl)

@[simp] theorem State.ran_opb (s : State) (i : Instr) : (s.ran i).opb = s.opb := (rfl)

@[simp] theorem State.ran_err (s : State) (i : Instr) : (s.ran i).err = s.err := (rfl)

@[simp] theorem State.ran_errcode (s : State) (i : Instr) : (s.ran i).errcode = s.errcode := (rfl)

@[simp] theorem State.ran_ibuf (s : State) (i : Instr) : (s.ran i).ibuf = s.ibuf := (rfl)

@[simp] theorem State.ran_inbox (s : State) (i : Instr) : (s.ran i).inbox = s.inbox := (rfl)

@[simp] theorem State.ran_outbox (s : State) (i : Instr) : (s.ran i).outbox = s.outbox := (rfl)

@[simp] theorem State.ran_epoch (s : State) (i : Instr) : (s.ran i).epoch = s.epoch := (rfl)

@[simp] theorem State.ran_draws (s : State) (i : Instr) : (s.ran i).draws = s.draws := (rfl)

theorem exec_of_admitted {i : Instr} {s : State} (h : s.commandError i = none) :
    exec i s = .next (s.ran i) := by
  rw [exec_eq_runCommand, State.runCommand, h]
  rfl

theorem exec_of_error {i : Instr} {s : State} {e : CmdError} (h : s.commandError i = some e) :
    exec i s = .next (s.reject e).retire := by
  rw [exec_eq_runCommand, State.runCommand, h]

/-- Everything a command can do: it runs, or one of its own checks rejects it. -/
theorem exec_cases {i : Instr} {s t : State} (h : exec i s = .next t) :
    (s.commandError i = none ∧ t = s.ran i) ∨
      ∃ e, s.commandError i = some e ∧ t = (s.reject e).retire := by
  cases he : s.commandError i with
  | none => exact .inl ⟨rfl, by simpa [exec_of_admitted he] using h.symm⟩
  | some e => exact .inr ⟨e, rfl, by simpa [exec_of_error he] using h.symm⟩

/-- A command always answers a next state. -/
theorem exec_next (i : Instr) (s : State) : ∃ t, exec i s = .next t := by
  cases he : s.commandError i with
  | none => exact ⟨_, exec_of_admitted he⟩
  | some e => exact ⟨_, exec_of_error he⟩

/-- Issuing a word rejects it or accepts it, and does nothing else. -/
theorem State.issue_cases (s : State) (v : Word) :
    (∃ e, s.issueError v = some e ∧ s.issue v = s.reject e) ∨
      (s.issueError v = none ∧ s.issue v = s.accept v) := by
  cases h : s.issueError v with
  | none => exact .inr ⟨rfl, by rw [State.issue, h]⟩
  | some e => exact .inl ⟨e, rfl, by rw [State.issue, h]⟩

/-- A word passes the checks of issue exactly when the block is idle and the word spells a command whose
own checks pass. -/
theorem State.issueError_eq_none {s : State} {v : Word} :
    s.issueError v = none ↔ s.inflight = none ∧ ∃ i, decode v = .ok i ∧ s.commandError i = none := by
  unfold State.issueError
  cases hb : s.busy with
  | true =>
    obtain ⟨f, hf⟩ := (State.busy_eq_true s).mp hb
    simp [hf]
  | false =>
    have := (State.busy_eq_false s).mp hb
    cases hd : decode v <;> simp [this]

/-- The Complete step of a block with no command in flight does nothing. -/
theorem State.complete_idle {s : State} (h : s.inflight = none) : s.complete = .next s := by
  simp [State.complete, State.fetched, h]

/-- The Complete step runs the command in flight. -/
theorem State.complete_inflight {s : State} {f : InFlight} {i : Instr} (h : s.inflight = some f)
    (hd : decode f.lcmd = .ok i) : s.complete = exec i s := by
  simp [State.complete, State.fetched, h, hd]

/-- The Complete step always answers a next state. -/
theorem State.complete_next (s : State) : ∃ t, s.complete = .next t := by
  unfold State.complete
  split
  · exact ⟨_, rfl⟩
  · exact exec_next _ _
  · exact ⟨_, rfl⟩

theorem step_of_nil {s : State} (h : s.inbox = []) : step s = s.complete := by
  simp [step, State.advance, h]

theorem step_of_access {s : State} {a : Access} {rest : List Event} (h : s.inbox = .access a :: rest) :
    step s = .next ({ s with inbox := rest }.doAccess a) := by
  simp [step, State.advance, h, State.handle]

theorem step_of_complete {s : State} {rest : List Event} (h : s.inbox = .complete :: rest) :
    step s = { s with inbox := rest }.complete := by
  simp [step, State.advance, h, State.handle]

theorem step_of_reset {s : State} {u : Option Access} {rest : List Event}
    (h : s.inbox = .reset u :: rest) : step s = .next ({ s with inbox := rest }.resetDuring u) := by
  simp [step, State.advance, h, State.handle]

end Sys2Proof.Machine
end

