-- ==== Sys2Proof/Laws/Memory.lean ====
section
/-! SUPPORT. The laws of the input buffer: a read after a write, the canonical form, and what a write of
several bytes does. -/

namespace Sys2Proof.Machine

@[simp] theorem Memory.get?_set_same (m : List Host.Cell) (i : Nat) (v : Byte) :
    Memory.get? (Memory.set m i v) i = some v := by
  induction m with
  | nil => simp [Memory.set, Memory.get?]
  | cons c m ih =>
    simp only [Memory.set]
    split
    · simp [Memory.get?]
    · split
      · simp [Memory.get?]
      · simp_all [Memory.get?]

@[simp] theorem Memory.get?_set_other (m : List Host.Cell) {i j : Nat} (v : Byte) (h : j ≠ i) :
    Memory.get? (Memory.set m i v) j = Memory.get? m j := by
  induction m with
  | nil => simp [Memory.set, Memory.get?, h]
  | cons c m ih =>
    simp only [Memory.set]
    split
    · simp [Memory.get?, h]
    · split
      · simp_all [Memory.get?]
      · simp [Memory.get?, ih]

theorem Memory.mem_set {m : List Host.Cell} {i : Nat} {v : Byte} {c : Host.Cell}
    (h : c ∈ Memory.set m i v) : c = (i, v) ∨ c ∈ m := by
  induction m with
  | nil => simpa [Memory.set] using h
  | cons d m ih =>
    simp only [Memory.set] at h
    split at h
    · simpa using h
    · split at h
      · simp only [List.mem_cons] at h ⊢
        tauto
      · simp only [List.mem_cons] at h ⊢
        rcases h with h | h
        · exact .inr (.inl h)
        · exact (ih h).imp_right .inr

/-- Writing a byte keeps the canonical form. -/
theorem Memory.set_wf {m : List Host.Cell} (h : Memory.wf m) (i : Nat) (v : Byte) :
    Memory.wf (Memory.set m i v) := by
  induction m with
  | nil => simp [Memory.set, Memory.wf]
  | cons c m ih =>
    obtain ⟨hc, hm⟩ := List.pairwise_cons.mp h
    simp only [Memory.set]
    split
    · refine List.pairwise_cons.mpr ⟨?_, h⟩
      intro d hd
      rcases List.mem_cons.mp hd with rfl | hd
      · assumption
      · exact Nat.lt_trans ‹_› (hc d hd)
    · split
      · subst_vars
        exact List.pairwise_cons.mpr ⟨hc, hm⟩
      · refine List.pairwise_cons.mpr ⟨?_, ih hm⟩
        intro d hd
        rcases Memory.mem_set hd with rfl | hd
        · simp; omega
        · exact hc d hd

/-- Reset's buffer is in canonical form. -/
theorem Memory.wf_reset : Memory.wf State.reset.ibuf := List.Pairwise.nil

@[simp] theorem State.ibufByte_setIbufByte_same (s : State) (i : Nat) (b : Byte) :
    (s.setIbufByte i b).ibufByte i = b := by
  simp [State.ibufByte]

@[simp] theorem State.ibufByte_setIbufByte_other (s : State) {i j : Nat} (b : Byte) (h : j ≠ i) :
    (s.setIbufByte i b).ibufByte j = s.ibufByte j := by
  simp [State.ibufByte, h]

/-! ### `writeLanes` changes IBUF alone, and of it the bytes of the access alone. -/

theorem State.writeLanes_eq (s : State) (i : Nat) (v : Word) (width : Nat) :
    s.writeLanes i v width = { s with ibuf := (s.writeLanes i v width).ibuf } := by
  induction width generalizing s i v with
  | zero => rfl
  | succ n ih =>
    simp only [State.writeLanes]
    rw [ih]
    rfl

theorem State.writeLanes_wf {s : State} (h : Memory.wf s.ibuf) (i : Nat) (v : Word) (width : Nat) :
    Memory.wf (s.writeLanes i v width).ibuf := by
  induction width generalizing s i v with
  | zero => exact h
  | succ n ih => exact ih (Memory.set_wf h _ _) _ _

theorem State.writeLanes_mem {s : State} {i : Nat} {v : Word} {width : Nat} {c : Host.Cell}
    (h : c ∈ (s.writeLanes i v width).ibuf) : c ∈ s.ibuf ∨ (i ≤ c.1 ∧ c.1 < i + width) := by
  induction width generalizing s i v with
  | zero => exact .inl h
  | succ n ih =>
    rcases ih h with h | h
    · rcases Memory.mem_set h with rfl | h
      · exact .inr ⟨Nat.le_refl _, by simp⟩
      · exact .inl h
    · exact .inr ⟨by omega, by omega⟩

theorem State.ibufByte_writeLanes_outside (s : State) {i j : Nat} (v : Word) {width : Nat}
    (h : j < i ∨ i + width ≤ j) : (s.writeLanes i v width).ibufByte j = s.ibufByte j := by
  induction width generalizing s i v with
  | zero => rfl
  | succ n ih =>
    rw [State.writeLanes, ih _ _ (by omega), State.ibufByte_setIbufByte_other _ _ (by omega)]

/-- Byte k of the data goes to `IBUF[i + k]`. -/
theorem State.ibufByte_writeLanes_inside (s : State) (i : Nat) (v : Word) {k width : Nat}
    (h : k < width) : (s.writeLanes i v width).ibufByte (i + k) = v.extractLsb' (8 * k) 8 := by
  induction width generalizing s i v k with
  | zero => omega
  | succ n ih =>
    cases k with
    | zero =>
      rw [State.writeLanes, State.ibufByte_writeLanes_outside _ _ (by omega)]
      simp only [Nat.add_zero, State.ibufByte_setIbufByte_same]
      ext b hb
      simp
    | succ k =>
      rw [State.writeLanes, show i + (k + 1) = i + 1 + k by omega, ih _ _ _ (by omega)]
      ext b hb
      simp only [BitVec.getElem_extractLsb', BitVec.getLsbD_ushiftRight]
      congr 1
      omega

/-- Bits beyond the access's width are 0. -/
theorem State.getLsbD_readLanes_outside (s : State) (i : Nat) {width b : Nat} (h : 8 * width ≤ b) :
    (s.readLanes i width).getLsbD b = false := by
  induction width generalizing i b with
  | zero => simp [State.readLanes]
  | succ n ih =>
    simp only [State.readLanes, BitVec.getLsbD_or, BitVec.getLsbD_setWidth, BitVec.getLsbD_shiftLeft]
    rw [ih _ (by omega), BitVec.getLsbD_of_ge _ _ (by omega)]
    simp

/-- Byte k of the data is `IBUF[i + k]`. -/
theorem State.extractLsb'_readLanes_inside (s : State) (i : Nat) {k width : Nat} (h : k < width)
    (hw : width ≤ 8) : (s.readLanes i width).extractLsb' (8 * k) 8 = s.ibufByte (i + k) := by
  induction width generalizing i k with
  | zero => omega
  | succ n ih =>
    cases k with
    | zero =>
      ext b hb
      simp only [State.readLanes, BitVec.getElem_extractLsb', BitVec.getLsbD_or,
        BitVec.getLsbD_setWidth, BitVec.getLsbD_shiftLeft]
      simp [hb, BitVec.getLsbD_eq_getElem]
      omega
    | succ k =>
      have := ih (i + 1) (k := k) (by omega) (by omega)
      rw [show i + (k + 1) = i + 1 + k by omega, ← this]
      ext b hb
      simp only [State.readLanes, BitVec.getElem_extractLsb', BitVec.getLsbD_or,
        BitVec.getLsbD_setWidth, BitVec.getLsbD_shiftLeft]
      rw [BitVec.getLsbD_of_ge _ _ (by omega), show 8 * (k + 1) + b - 8 = 8 * k + b by omega]
      have h1 : ¬ 8 * (k + 1) + b < 8 := by omega
      have h2 : 8 * (k + 1) + b < 64 := by omega
      simp [h1, h2]

end Sys2Proof.Machine
end

