-- ==== Sys2Proof/Laws/Bus.lean ====
section
/-! SUPPORT. What the bus operations can do, each said once. -/

namespace Sys2Proof.Machine

/-- The register at a register's offset is that register. -/
@[simp] theorem regAt_regOffset (r : Reg) : regAt (regOffset r) = some r := by
  cases r <;> decide

/-- A register's offset is in the register region and 8-byte aligned. -/
@[simp] theorem wellSized_regOffset (r : Reg) : wellSized (regOffset r) 8 = true := by
  cases r <;> decide

@[simp] theorem inRegisterRegion_regOffset (r : Reg) : inRegisterRegion (regOffset r) = true := by
  cases r <;> decide

@[simp] theorem State.busRead_reg (s : State) (r : Reg) :
    s.busRead (regOffset r) 8 = ((s.readReg r).1, .data (s.readReg r).2) := by
  simp [State.busRead]

@[simp] theorem State.busWrite_reg (s : State) (r : Reg) (v : Word) :
    s.busWrite (regOffset r) 8 v = (s.writeReg r v, .written) := by
  simp [State.busWrite]

/-- Reading a register changes the draw counter at most. -/
theorem State.readReg_state (s : State) (r : Reg) :
    ∃ n, (s.readReg r).1 = { s with draws := n } := by
  unfold State.readReg
  split
  · exact ⟨_, rfl⟩
  · exact ⟨s.draws, rfl⟩

/-- A read changes the draw counter at most. -/
theorem State.busRead_state (s : State) (offset : BitVec 13) (width : Nat) :
    ∃ n, (s.busRead offset width).1 = { s with draws := n } := by
  unfold State.busRead
  split
  · exact ⟨s.draws, rfl⟩
  · split
    · split
      · exact State.readReg_state s _
      · exact ⟨s.draws, rfl⟩
    · split <;> exact ⟨s.draws, rfl⟩

/-- Everything a write can do to the block. -/
theorem State.busWrite_cases (s : State) (offset : BitVec 13) (width : Nat) (v : Word) :
    (s.busWrite offset width v).1 = s ∨
      (s.busWrite offset width v).1 = s.issue v ∨
      (s.busWrite offset width v).1 = s.writeStatus v ∨
      (s.busWrite offset width v).1 = { s with opa := v } ∨
      (s.busWrite offset width v).1 = { s with opb := v } ∨
      (s.busy = false ∧ ibufIndex offset + width ≤ s.params.ibufBytes ∧
        (s.busWrite offset width v).1 = s.writeLanes (ibufIndex offset) v width) := by
  unfold State.busWrite
  split
  · exact .inl rfl
  · split
    · split
      · rename_i r _
        cases r <;> simp [State.writeReg]
      · exact .inl rfl
    · split
      · split
        · exact .inl rfl
        · simp_all [State.insideIbuf]
      · exact .inl rfl

@[simp] theorem State.issue_outbox (s : State) (v : Word) : (s.issue v).outbox = s.outbox := by
  unfold State.issue
  cases s.issueError v <;> simp

@[simp] theorem State.writeLanes_outbox (s : State) (i n : Nat) (v : Word) :
    (s.writeLanes i v n).outbox = s.outbox := by
  induction n generalizing s i v with
  | zero => rfl
  | succ n ih => exact ih _ _ _

/-- Performing an access gives no response by itself: `doAccess` gives it. -/
@[simp] theorem State.perform_outbox (s : State) (a : Access) : (s.perform a).1.outbox = s.outbox := by
  cases a with
  | read o w =>
    obtain ⟨n, h⟩ := s.busRead_state o w
    simp only [State.perform, h]
  | write o w v =>
    rcases s.busWrite_cases o w v with h | h | h | h | h | ⟨-, -, h⟩ <;> simp [State.perform, h]

@[simp] theorem State.doAccess_state (s : State) (a : Access) :
    s.doAccess a = (s.perform a).1.respond (s.perform a).2 := rfl

end Sys2Proof.Machine
end

