-- ==== Sys2Proof/Laws/Encoding.lean ====
section
/-! SUPPORT. The laws of the command word: its fields and the word made of them are the same data, and
what a successful decoding says of the fields. -/

namespace Sys2Proof

@[simp] theorem fieldsOf_wordOf (f : Fields) : fieldsOf (wordOf f) = f := by
  obtain ⟨a, b, c, d⟩ := f
  simp only [fieldsOf, wordOf, Fields.mk.injEq]
  refine ⟨?_, ?_, ?_, ?_⟩ <;> ext i hi <;> simp <;> grind

@[simp] theorem wordOf_fieldsOf (w : Word) : wordOf (fieldsOf w) = w := by
  apply BitVec.eq_of_getLsbD_eq
  intro i hi
  simp only [fieldsOf, wordOf, BitVec.getLsbD_or, BitVec.getLsbD_shiftLeft, BitVec.getLsbD_setWidth,
    BitVec.getLsbD_extractLsb']
  rcases (by omega : i < 8 ∨ (8 ≤ i ∧ i < 12) ∨ (12 ≤ i ∧ i < 32) ∨ 32 ≤ i) with h | h | h | h
  · simp [h, hi, show i < 12 by omega, show i < 32 by omega]
  · simp [hi, show ¬ i < 8 by omega, h.2, show i < 32 by omega, show i - 8 < 4 by omega,
      show i - 8 < 64 by omega, show 8 + (i - 8) = i by omega]
  · simp [hi, show ¬ i < 8 by omega, show ¬ i < 12 by omega, h.2, show ¬ i - 8 < 4 by omega,
      show i - 12 < 20 by omega, show i - 12 < 64 by omega, show 12 + (i - 12) = i by omega]
  · simp [hi, show ¬ i < 8 by omega, show ¬ i < 12 by omega, show ¬ i < 32 by omega,
      show ¬ i - 8 < 4 by omega, show ¬ i - 12 < 20 by omega, show i - 32 < 32 by omega,
      show i - 32 < 64 by omega, show 32 + (i - 32) = i by omega]

theorem wordOf_injective {f g : Fields} (h : wordOf f = wordOf g) : f = g := by
  rw [← fieldsOf_wordOf f, h, fieldsOf_wordOf]

@[simp] theorem fieldsOf_encode (i : Instr) : fieldsOf (encode i) = encodeFields i :=
  fieldsOf_wordOf _

/-- The check of the unused fields passes exactly when they are 0. -/
@[simp] theorem ifUnusedZero_eq_ok {b : Bool} {i j : Instr} :
    ifUnusedZero b i = .ok j ↔ b = true ∧ i = j := by
  unfold ifUnusedZero
  split <;> simp_all

/-- It fails by E_RSVD alone. -/
@[simp] theorem ifUnusedZero_eq_error {b : Bool} {i : Instr} {e : DecodeError} :
    ifUnusedZero b i = .error e ↔ b = false ∧ e = .rsvd := by
  unfold ifUnusedZero
  split <;> simp_all [eq_comm]

/-- A word that decodes has its opcode below 0x0A, and one that does not have it there is E_OPCODE. -/
theorem decode_opcode {w : Word} (h : 0x0A ≤ (fieldsOf w).opc.toNat) :
    decode w = .error .opcode := by
  unfold decode
  dsimp only
  split <;> simp_all

/-- The word of a table row whose bits are those of a word is that word. -/
@[simp] theorem tableWord_toNat (w : Word) : tableWord 64 w.toNat = w := by
  simp [tableWord, Nat.mod_eq_of_lt w.isLt]

end Sys2Proof
end

