-- ==== Sys2Proof/Laws/PerInstr.lean ====
section
/-! SUPPORT. The family SpellsItsRow, one lemma per command: a command's word spells the row of R50's table
that bears its mnemonic. -/

namespace Sys2Proof.Laws.SpellsItsRow

/-- A row of R50's table bears the command's mnemonic, and the command's word spells that row. -/
def Statement (i : Instr) : Prop :=
  ∃ r ∈ rows, r.mnemonic = i.mnemonic ∧ r.spells (encode i) = true

/-- R50's mask of a command that uses IMM keeps bits 31:0. -/
theorem immMask_eq : (0x00000000FFFFFFFF : Word) = (BitVec.allOnes 32).setWidth 64 := by decide

/-- R50's mask of TAIL keeps bits 31:12 and 7:0. -/
theorem tailMask_eq : (0x00000000FFFFF0FF : Word) =
    ((BitVec.allOnes 20).setWidth 64 <<< 12) ||| (BitVec.allOnes 8).setWidth 64 := by decide

/-- Bits 31:0 of a word whose RSV and CNT are 0 are its opcode. -/
theorem immMask_and_wordOf (imm : BitVec 32) (opc : BitVec 8) :
    wordOf { imm := imm, rsv := 0, cnt := 0, opc := opc } &&& 0x00000000FFFFFFFF
      = opc.setWidth 64 := by
  rw [immMask_eq]
  ext i hi
  simp only [wordOf, BitVec.getElem_and, BitVec.getElem_or, BitVec.getElem_shiftLeft,
    BitVec.getElem_setWidth, BitVec.getLsbD_allOnes]
  by_cases h : i < 32
  · simp [h]
  · simp [h, BitVec.getLsbD_of_ge opc i (by omega)]

/-- Bits 31:12 and 7:0 of a word whose RSV is 0 are its opcode. -/
theorem tailMask_and_wordOf (imm : BitVec 32) (cnt : BitVec 4) (opc : BitVec 8) :
    wordOf { imm := imm, rsv := 0, cnt := cnt, opc := opc } &&& 0x00000000FFFFF0FF
      = opc.setWidth 64 := by
  rw [tailMask_eq]
  ext i hi
  simp only [wordOf, BitVec.getElem_and, BitVec.getElem_or, BitVec.getElem_shiftLeft,
    BitVec.getElem_setWidth, BitVec.getLsbD_allOnes]
  rcases (by omega : i < 8 ∨ (8 ≤ i ∧ i < 12) ∨ (12 ≤ i ∧ i < 32) ∨ 32 ≤ i) with h | h | h | h
  · simp [h, show i < 12 by omega, show i < 32 by omega]
  · simp [show ¬ i < 8 by omega, h.2, BitVec.getLsbD_of_ge opc i h.1]
  · simp [show ¬ i < 8 by omega, show ¬ i < 12 by omega, h.2, BitVec.getLsbD_of_ge opc i (by omega),
      BitVec.getLsbD_of_ge cnt (i - 8) (by omega)]
  · simp [show ¬ i < 8 by omega, show ¬ i < 12 by omega, show ¬ i < 32 by omega,
      show ¬ i - 12 < 20 by omega, BitVec.getLsbD_of_ge opc i (by omega)]

theorem nop : Statement .nop := by unfold Statement; decide

theorem ldk : Statement .ldk := by unfold Statement; decide

theorem kxor : Statement .kxor := by unfold Statement; decide

theorem mix : Statement .mix := by unfold Statement; decide

theorem wmix : Statement .wmix := by unfold Statement; decide

theorem fin : Statement .fin := by unfold Statement; decide

theorem init (seed : BitVec 32) : Statement (.init seed) :=
  ⟨rows[1], by decide, rfl, beq_iff_eq.mpr (immMask_and_wordOf seed 0x01)⟩

theorem rdblk (off : Nat) : Statement (.rdblk off) :=
  ⟨rows[4], by decide, rfl, beq_iff_eq.mpr (immMask_and_wordOf (BitVec.ofNat 32 off) 0x04)⟩

theorem tail (off cnt : Nat) : Statement (.tail off cnt) :=
  ⟨rows[5], by decide, rfl, beq_iff_eq.mpr (tailMask_and_wordOf (BitVec.ofNat 32 off) (BitVec.ofNat 4 cnt) 0x05)⟩

theorem bmix (off : Nat) : Statement (.bmix off) :=
  ⟨rows[7], by decide, rfl, beq_iff_eq.mpr (immMask_and_wordOf (BitVec.ofNat 32 off) 0x07)⟩

end Sys2Proof.Laws.SpellsItsRow
end

