-- ==== Sys2Proof/Laws/Procedures.lean ====
section
/-! SUPPORT. What the events and the lines of a host program do, each said once. The inbox is taken apart
here, so that a proof about a program is about the block alone. -/

namespace Sys2Proof.Machine

/-! ### What is to come changes nothing of what an event does -/

theorem State.readLanes_inbox (s : State) (es : List Event) (i n : Nat) :
    ({ s with inbox := es } : State).readLanes i n = s.readLanes i n := by
  induction n generalizing i with
  | zero => rfl
  | succ n ih =>
    simp only [State.readLanes, ih]
    rfl

theorem State.writeLanes_inbox (s : State) (es : List Event) (i n : Nat) (v : Word) :
    ({ s with inbox := es } : State).writeLanes i v n = { s.writeLanes i v n with inbox := es } := by
  induction n generalizing s i v with
  | zero => rfl
  | succ n ih => exact ih (s.setIbufByte i (v.setWidth 8)) (i + 1) (v >>> 8)

theorem State.issue_inbox (s : State) (es : List Event) (v : Word) :
    ({ s with inbox := es } : State).issue v = { s.issue v with inbox := es } := by
  have h : ({ s with inbox := es } : State).issueError v = s.issueError v := rfl
  unfold State.issue
  rw [h]
  cases s.issueError v with
  | none => rfl
  | some e =>
    simp only [State.reject]
    cases h : s.err <;> simp [h]

theorem State.readReg_inbox (s : State) (es : List Event) (r : Reg) :
    ({ s with inbox := es } : State).readReg r =
      ({ (s.readReg r).1 with inbox := es }, (s.readReg r).2) := by
  have h : ({ s with inbox := es } : State).busy = s.busy := rfl
  unfold State.readReg
  rw [h]
  cases s.busy && hiddenWhileBusy r with
  | true => rfl
  | false => cases r <;> rfl

/-- An access is performed alike whatever is to come. -/
theorem State.perform_inbox (s : State) (es : List Event) (a : Access) :
    ({ s with inbox := es } : State).perform a =
      ({ (s.perform a).1 with inbox := es }, (s.perform a).2) := by
  have hb : ({ s with inbox := es } : State).busy = s.busy := rfl
  cases a with
  | read o w =>
    have hi : ({ s with inbox := es } : State).insideIbuf o w = s.insideIbuf o w := rfl
    simp only [State.perform, State.busRead, State.readReg_inbox, State.readLanes_inbox, hi]
    split
    · rfl
    · split
      · split <;> rfl
      · split <;> rfl
  | write o w v =>
    have hi : ({ s with inbox := es } : State).insideIbuf o w = s.insideIbuf o w := rfl
    simp only [State.perform, State.busWrite, State.writeReg, State.writeLanes_inbox, State.issue_inbox,
      hi, hb]
    split
    · rfl
    · split
      · split
        · rename_i r _
          cases r <;> simp [State.writeStatus]
          split <;> rfl
        · rfl
      · split
        · split <;> rfl
        · rfl

/-- A command runs alike whatever is to come and whatever was answered before. -/
theorem exec_inbox (i : Instr) {s t : State} (es : List Event) (out : List Response)
    (h : exec i s = .next t) :
    exec i { s with inbox := es, outbox := out } = .next { t with inbox := es, outbox := out } := by
  have hc : ({ s with inbox := es, outbox := out } : State).commandError i = s.commandError i := rfl
  rcases exec_cases h with ⟨hn, rfl⟩ | ⟨e, he, rfl⟩
  · rw [exec_of_admitted (hc.trans hn)]
    have : effectOf ({ s with inbox := es, outbox := out } : State) i = effectOf s i := by
      apply effectOf_congr <;> intros <;> rfl
    simp only [State.ran, this]
    rfl
  · rw [exec_of_error (hc.trans he)]
    simp only [State.reject, State.retire]
    cases h : s.err <;> simp [h]

/-- So does the Complete step. -/
theorem State.complete_inbox {s t : State} (es : List Event) (out : List Response)
    (h : s.complete = .next t) :
    ({ s with inbox := es, outbox := out } : State).complete =
      .next { t with inbox := es, outbox := out } := by
  have hf : ({ s with inbox := es, outbox := out } : State).fetched = s.fetched := rfl
  unfold State.complete at h ⊢
  rw [hf]
  cases hs : s.fetched with
  | none =>
    rw [hs] at h
    cases h
    rfl
  | some d =>
    rw [hs] at h
    cases d with
    | ok i => exact exec_inbox i es out h
    | error e =>
      cases h
      simp only [State.reject, State.retire]
      cases h : s.err <;> simp [h]

/-! ### Events and accesses -/

/-- Steps in a row. -/
theorem steps_add {n m : Nat} {s t : State} (h : steps n s = .next t) : steps (n + m) s = steps m t := by
  induction n generalizing s with
  | zero =>
    cases h
    simp
  | succ n ih =>
    rw [Nat.succ_add]
    simp only [steps] at h ⊢
    cases hs : step s with
    | next v =>
      rw [hs] at h
      exact ih h
    | fault r => cases r
    | refused r =>
      rw [hs] at h
      cases h

theorem runEvents_access (s : State) (a : Access) :
    runEvents [.access a] s = .next { s.doAccess a with inbox := [] } := by
  have h := step_of_access (s := { s with inbox := [.access a] }) rfl
  have hp := s.perform_inbox [] a
  simp only [runEvents, List.length_cons, List.length_nil, steps, h, State.doAccess]
  rw [hp]
  rfl

/-- Complete gives no response. -/
theorem State.complete_outbox {s t : State} (h : s.complete = .next t) : t.outbox = s.outbox := by
  have e := h.symm.trans (State.complete_inbox (s := s) s.inbox s.outbox h)
  injection e with e
  have := congrArg State.outbox e
  exact this

theorem runEvents_complete_access {s t : State} (h : s.complete = .next t) (a : Access) :
    runEvents [.complete, .access a] s = .next { t.doAccess a with inbox := [] } := by
  have e : step { s with inbox := [.complete, .access a] } = .next { t with inbox := [.access a] } := by
    rw [(step_of_complete (s := { s with inbox := [.complete, .access a] }) rfl).trans
      (State.complete_inbox (s := s) [.access a] s.outbox h), ← State.complete_outbox h]
  have e1 : steps 1 { s with inbox := [.complete, .access a] } = .next { t with inbox := [.access a] } := by
    simp only [steps, e]
  exact (steps_add (m := 1) e1).trans (runEvents_access t a)

/-- One access of the host, with Complete before it; its response is the last. -/
theorem HostRun.access_now {s t : State} (h : s.complete = .next t) {pace : List Bool}
    (hp : paceEvents pace = [.complete]) (a : Access) :
    HostRun.access { block := s, pace := pace } a =
      .next { block := { t.doAccess a with inbox := [] }, pace := pace.tail } := by
  simp only [HostRun.access, hp, List.cons_append, List.nil_append, runEvents_complete_access h]

/-- One access of the host, with no Complete before it. -/
theorem HostRun.access_later (s : State) (pace : List Bool) (a : Access) :
    HostRun.access { block := s, pace := false :: pace } a =
      .next { block := { s.doAccess a with inbox := [] }, pace := pace } := by
  simp only [HostRun.access, paceEvents, List.nil_append, runEvents_access, List.tail_cons]

/-- On an idle block the pace does not matter. -/
theorem HostRun.access_idle {s : State} (h : s.inflight = none) (pace : List Bool) (a : Access) :
    HostRun.access { block := s, pace := pace } a =
      .next { block := { s.doAccess a with inbox := [] }, pace := pace.tail } := by
  match pace with
  | [] => exact HostRun.access_now (State.complete_idle h) rfl a
  | true :: p => exact HostRun.access_now (State.complete_idle h) rfl a
  | false :: p => exact HostRun.access_later s p a

/-- A write of a register, and its response. -/
theorem doAccess_st (s : State) (r : Reg) (v : Word) :
    s.doAccess (.write (regOffset r) 8 v) = (s.writeReg r v).respond .written := by
  simp [State.doAccess, State.perform]

/-- A read of a register of an idle block, and its response. -/
theorem doAccess_ld {s : State} (hf : s.inflight = none) (r : Reg) :
    s.doAccess (.read (regOffset r) 8) = s.respond (.data (s.regValue r)) := by
  have hb : s.busy = false := by simp [State.busy, hf]
  simp [State.doAccess, State.perform, State.readReg, hb]

/-- A poll of STATUS, idle or busy, and its response. -/
theorem doAccess_poll (s : State) : s.doAccess pollAccess = s.respond (.data s.statusWord) := by
  simp [State.doAccess, pollAccess, State.perform, State.readReg, hiddenWhileBusy, State.regValue]

/-- Bit 0 of STATUS is BUSY. -/
theorem State.statusWord_busy (s : State) : s.statusWord.getLsbD 0 = s.busy := by
  unfold State.statusWord
  cases s.busy <;> simp

/-- After a poll of STATUS the last response says whether the block is busy. -/
theorem State.lastReadsBusy_poll (s : State) (out : List Response) :
    ({ s with inbox := [], outbox := out ++ [.data s.statusWord] } : State).lastReadsBusy = s.busy := by
  simp only [State.lastReadsBusy, State.lastRead, List.getLast?_concat, State.statusWord_busy]

/-- The read of a register of an idle block gets the register's word, and changes nothing else. -/
theorem HostRun.load_idle {α : Type} {h : HostRun} (hf : h.block.inflight = none) (r : Reg)
    (use : Word → HostRun → Ended α) :
    h.load r use =
      use (h.block.regValue r)
        { block := { h.block with inbox := [], outbox := h.block.outbox ++ [.data (h.block.regValue r)] }
          pace := h.pace.tail } := by
  have e : h.access (.read (regOffset r) 8) = _ := HostRun.access_idle hf h.pace _
  simp only [HostRun.load, HostRun.act, e, doAccess_ld hf, State.respond, State.lastRead,
    List.getLast?_concat]

/-- Bit 1 of STATUS is ERR. -/
theorem State.statusWord_err (s : State) : s.statusWord.getLsbD 1 = s.err := by
  unfold State.statusWord
  cases s.err <;> simp

/-- Bit 2 of STATUS is DONE. -/
theorem State.statusWord_done (s : State) : s.statusWord.getLsbD 2 = s.done := by
  unfold State.statusWord
  cases s.done <;> simp

/-! ### Actions -/

/-- From `s` the actions lead to `t` and some responses, at any pace and whatever was answered before. -/
def Reaches (acts : List HostAction) (s t : State) : Prop :=
  ∀ out pace, ∃ out' pace',
    HostRun.acts { block := { s with inbox := [], outbox := out }, pace := pace } acts =
      .next { block := { t with inbox := [], outbox := out' }, pace := pace' }

theorem Reaches.nil (s : State) : Reaches [] s s := fun out pace => ⟨out, pace, rfl⟩

/-- Actions in a row. -/
theorem HostRun.acts_append {h t : HostRun} {l m : List HostAction} (e : h.acts l = .next t) :
    h.acts (l ++ m) = t.acts m := by
  induction l generalizing h with
  | nil =>
    cases e
    rfl
  | cons a l ih =>
    simp only [List.cons_append, HostRun.acts] at e ⊢
    cases ha : h.act a with
    | next v =>
      rw [ha] at e
      exact ih e
    | fault r => cases r
    | refused r =>
      rw [ha] at e
      cases e

theorem Reaches.append {l m : List HostAction} {s t u : State} (h : Reaches l s t) (h' : Reaches m t u) :
    Reaches (l ++ m) s u := by
  intro out pace
  obtain ⟨o1, p1, h1⟩ := h out pace
  obtain ⟨o2, p2, h2⟩ := h' o1 p1
  exact ⟨o2, p2, (HostRun.acts_append h1).trans h2⟩

/-- `st` on an idle block writes the register, if the write does not depend on the responses. -/
theorem reaches_st {r : Reg} {v : Word} {s t : State} (hf : s.inflight = none)
    (h : ∀ out, ({ s with inbox := [], outbox := out } : State).writeReg r v =
      { t with inbox := [], outbox := out }) :
    Reaches [stAction r v] s t := by
  intro out pace
  have hr : (regOffset r).toNat < 0x2000 := (regOffset r).isLt
  refine ⟨out ++ [.written], pace.tail, ?_⟩
  simp only [HostRun.acts, stAction, HostRun.act, hr, if_true, BitVec.ofNat_toNat, BitVec.setWidth_eq]
  rw [HostRun.access_idle (s := { s with inbox := [], outbox := out }) hf, doAccess_st, h]
  rfl

/-- `wait` is the Complete step, if that leaves the block idle. -/
theorem reaches_wait {s t : State} (h : s.complete = .next t) (ht : t.inflight = none) :
    Reaches [.wait] s t := by
  have now : ∀ (pace : List Bool) (out : List Response), paceEvents pace = [.complete] →
      HostRun.access { block := { s with inbox := [], outbox := out }, pace := pace } pollAccess =
        .next
          { block := { t with inbox := [], outbox := out ++ [.data t.statusWord] }
            pace := pace.tail } := by
    intro pace out hp
    rw [HostRun.access_now (State.complete_inbox [] out h) hp, doAccess_poll]
    rfl
  have hb : t.busy = false := by simp [State.busy, ht]
  have key : ∀ (pace : List Bool) (out : List Response), ∃ out' pace',
      waitFrom pace { s with inbox := [], outbox := out } =
        .next { block := { t with inbox := [], outbox := out' }, pace := pace' } := by
    intro pace
    induction pace with
    | nil => exact fun out => ⟨_, _, now [] out rfl⟩
    | cons b pace ih =>
      intro out
      cases b with
      | true =>
        refine ⟨out ++ [.data t.statusWord], pace, ?_⟩
        simp only [waitFrom, now (true :: pace) out rfl, State.lastReadsBusy_poll, hb]
        rfl
      | false =>
        have later : HostRun.access { block := { s with inbox := [], outbox := out }, pace := false :: pace }
            pollAccess =
            .next { block := { s with inbox := [], outbox := out ++ [.data s.statusWord] }, pace := pace } := by
          rw [HostRun.access_later, doAccess_poll]
          rfl
        simp only [waitFrom, later, State.lastReadsBusy_poll]
        cases hs : s.busy with
        | true => exact ih _
        | false =>
          have hi := (State.busy_eq_false s).mp hs
          rw [State.complete_idle hi] at h
          cases h
          exact ⟨out ++ [.data s.statusWord], pace, rfl⟩
  intro out pace
  obtain ⟨out', pace', e⟩ := key pace out
  refine ⟨out', pace', ?_⟩
  simp only [HostRun.acts, HostRun.act]
  rw [e]

/-! ### Lines -/

/-- From `s` the lines lead to `t` and some responses, at any pace and whatever was answered before. -/
def Runs (lines : List HostLine) (s t : State) : Prop := Reaches (lines.flatMap HostLine.actions) s t

theorem Runs.nil (s : State) : Runs [] s s := Reaches.nil s

theorem Runs.append {l m : List HostLine} {s t u : State} (h : Runs l s t) (h' : Runs m t u) :
    Runs (l ++ m) s u := by
  unfold Runs
  rw [List.flatMap_append]
  exact Reaches.append h h'

theorem Runs.cons {l : HostLine} {m : List HostLine} {s t u : State} (h : Runs [l] s t)
    (h' : Runs m t u) : Runs (l :: m) s u := h.append h'

/-- Lines of the same actions do the same: `LDK a, b` is `st OPA, a`, `st OPB, b` and the command (R54). -/
theorem Runs.congr {l m : List HostLine} {s t : State} (h : Runs m s t)
    (e : l.flatMap HostLine.actions = m.flatMap HostLine.actions) : Runs l s t := by
  unfold Runs
  rw [e]
  exact h

theorem runs_wait {s t : State} (h : s.complete = .next t) (ht : t.inflight = none) :
    Runs [.wait] s t := reaches_wait h ht

/-- A command line on an idle block, with its `wait`, runs the command if its checks pass. -/
theorem runs_run {i : Instr} {s : State} (hi : s.inflight = none) (hw : lineWord i = encode i)
    (hd : decode (encode i) = .ok i) (hc : s.commandError i = none) : Runs [.run i] s (s.ran i) := by
  have hb : s.busy = false := by simp [State.busy, hi]
  have hn : s.issueError (encode i) = none := by simp [State.issueError, hb, hd, hc]
  have h1 : Reaches [commandAction i] s (s.accept (encode i)) := by
    refine reaches_st hi fun out => ?_
    have hn' : ({ s with inbox := [], outbox := out } : State).issueError (encode i) = none := hn
    rw [hw]
    simp [State.writeReg, State.issue, hn']
    rfl
  have he : effectOf (s.accept (encode i)) i = effectOf s i := by
    apply effectOf_congr <;> intros <;> rfl
  have hr : (s.accept (encode i)).ran i = s.ran i := by
    simp only [State.ran, he, State.latched_idle hi]
    rfl
  have hcomp : (s.accept (encode i)).complete = .next (s.ran i) := by
    rw [State.complete_inflight (f := { lcmd := encode i, lopa := s.opa, lopb := s.opb }) rfl hd]
    rw [exec_of_admitted (s := s.accept (encode i)) hc, hr]
  exact h1.append (reaches_wait hcomp (State.ran_inflight s i))

theorem runs_opa {s : State} (hf : s.inflight = none) (v : Word) : Runs [.st .opa v] s { s with opa := v } :=
  reaches_st hf fun _ => rfl

theorem runs_opb {s : State} (hf : s.inflight = none) (v : Word) : Runs [.st .opb v] s { s with opb := v } :=
  reaches_st hf fun _ => rfl

theorem runs_clrerr {s : State} (hf : s.inflight = none) :
    Runs [.clrerr] s { s with err := false, errcode := 0 } :=
  reaches_st (r := .status) (v := 0x2) hf fun _ => rfl

/-- `stb` stores a byte into IBUF of an idle block. -/
theorem runs_stb {s : State} {i : Nat} (b : Byte) (hf : s.inflight = none) (h : i < s.params.ibufBytes)
    (h' : s.params.ibufBytes ≤ 4096) : Runs [.stb i b] s (s.setIbufByte i b) := by
  intro out pace
  have hn : (BitVec.ofNat 13 (0x1000 + i)).toNat = 0x1000 + i := by
    rw [BitVec.toNat_ofNat]
    exact Nat.mod_eq_of_lt (by omega)
  have hr : inRegisterRegion (BitVec.ofNat 13 (0x1000 + i)) = false := by
    unfold inRegisterRegion
    rw [hn]
    exact decide_eq_false (by omega)
  have hx : ibufIndex (BitVec.ofNat 13 (0x1000 + i)) = i := by
    unfold ibufIndex
    rw [hn]
    omega
  have hw : wellSized (BitVec.ofNat 13 (0x1000 + i)) 1 = true := by
    unfold wellSized
    rw [hr]
    simp [Nat.mod_one]
  have hs : ({ s with inbox := [], outbox := out } : State).insideIbuf (BitVec.ofNat 13 (0x1000 + i)) 1 = true := by
    unfold State.insideIbuf
    rw [hx]
    exact decide_eq_true h
  have hb : ({ s with inbox := [], outbox := out } : State).busy = false := by simp [State.busy, hf]
  have e : ({ s with inbox := [], outbox := out } : State).doAccess
      (.write (BitVec.ofNat 13 (0x1000 + i)) 1 (b.setWidth 64)) =
      { s.setIbufByte i b with inbox := [], outbox := out ++ [.written] } := by
    simp only [State.doAccess, State.perform, State.busWrite, hw, hr, hs, hb, hx, State.writeLanes]
    simp [State.respond, State.setIbufByte]
  refine ⟨out ++ [.written], pace.tail, ?_⟩
  have ha : HostLine.actions (.stb i b) = [.store (0x1000 + i) 1 (b.setWidth 64)] := rfl
  have hlt : 0x1000 + i < 0x2000 := by omega
  simp only [List.flatMap_cons, List.flatMap_nil, List.append_nil, ha, HostRun.acts, HostRun.act, hlt, if_true]
  rw [HostRun.access_idle (s := { s with inbox := [], outbox := out }) hf, e]

end Sys2Proof.Machine
end

