-- ==== Sys2Proof/Laws/Units.lean ====
section
/-! SUPPORT. Which registers of the hash state each unit leaves alone. A proof cites these rather than
compare a register of a finalized state with `rfl`: the comparison would unfold the arithmetic of the
other registers. -/

namespace Sys2Proof.Machine

/-- FIN's effect changes H1 and H2 alone. -/
theorem finalizeHash_eq (length : Word) (h : HashState) :
    ∃ a b, finalizeHash length h = { h with h1 := a, h2 := b } := ⟨_, _, rfl⟩

theorem xorTailByte_eq (j : Nat) (b : Byte) (h : HashState) :
    ∃ k1 k2, xorTailByte j b h = { h with k1 := k1, k2 := k2 } := by
  unfold xorTailByte
  split
  · exact ⟨h.k1, _, rfl⟩
  · exact ⟨_, h.k2, rfl⟩

/-- The tail changes K1 and K2 alone. -/
theorem xorTail_eq (tailByte : Nat → Byte) (n : Nat) (h : HashState) :
    ∃ k1 k2, xorTail tailByte n h = { h with k1 := k1, k2 := k2 } := by
  induction n generalizing h with
  | zero => exact ⟨h.k1, h.k2, rfl⟩
  | succ n ih =>
    obtain ⟨a, b, hb⟩ := xorTailByte_eq n (tailByte n) h
    obtain ⟨k1, k2, hk⟩ := ih (xorTailByte n (tailByte n) h)
    exact ⟨k1, k2, by rw [xorTail, hk, hb]⟩

/-- A round advances C1 and C2 by R66's step 6, whatever the other registers hold. -/
theorem bmix64_eq (rotQuirk : Bool) (h : HashState) :
    ∃ a b c d, bmix64 rotQuirk h =
      { h1 := a, h2 := b, k1 := c, k2 := d, c1 := h.c1 * 5 + ca1, c2 := h.c2 * 5 + ca2 } :=
  ⟨_, _, _, _, rfl⟩

/-- RDBLK, TAIL, LDK and KXOR change K1 and K2 alone. -/
theorem effectOf_load_eq {i : Instr} (hi : i.mnemonic ∈ ["RDBLK", "TAIL", "LDK", "KXOR"]) (s : State)
    (f : InFlight) (h : HashState) :
    ∃ k1 k2, effectOf s i f h = { h with k1 := k1, k2 := k2 } := by
  cases i with
  | ldk => exact ⟨_, _, effectOf_ldk s f h⟩
  | kxor => exact ⟨_, _, effectOf_kxor s f h⟩
  | rdblk off => exact ⟨_, _, effectOf_rdblk s off f h⟩
  | tail off cnt => exact effectOf_tail s off cnt f h ▸ xorTail_eq _ _ _
  | nop => simp [Instr.mnemonic] at hi
  | init seed => simp [Instr.mnemonic] at hi
  | mix => simp [Instr.mnemonic] at hi
  | bmix off => simp [Instr.mnemonic] at hi
  | wmix => simp [Instr.mnemonic] at hi
  | fin => simp [Instr.mnemonic] at hi

end Sys2Proof.Machine
end

