-- ==== Sys2Proof/Tests/Slice0.lean ====
section
/-! SUPPORT. Tests of one step or one word each, with the expected values of the spec's own tables
(spec/95_test_vectors.md; the table's name stands before each group), and for every obligation with
hypotheses a concrete case that meets them. -/

namespace Sys2Proof.Tests

open Sys2Proof.Machine Sys2Proof.Written

/-! ### States to test on -/

/-- The state after `INIT 0` from reset, as T-INIT writes it. -/
def afterInit : State :=
  { State.reset with
    hash :=
      { h1 := 0x9368e53c2f6af274
        h2 := 0x586dcd208f7cd3fd
        k1 := 0
        k2 := 0
        c1 := 0x87c37b91114253d5
        c2 := 0x4cf5ad432745937f }
    initd := true }

/-- The state with these bytes at the start of IBUF. -/
def withBytes (bytes : List Byte) (s : State) : State :=
  { s with ibuf := bytes.zipIdx.map fun x => (x.2, x.1) }

/-- The state with IBUF[k] = k for k = 0..15. -/
def withRamp (s : State) : State :=
  withBytes [0x00, 0x01, 0x02, 0x03, 0x04, 0x05, 0x06, 0x07, 0x08, 0x09, 0x0a, 0x0b, 0x0c, 0x0d, 0x0e, 0x0f] s

/-- The state with the word in flight and these latched operands. -/
def inFlight (v lopa lopb : Word) (s : State) : State :=
  { s with inflight := some { lcmd := v, lopa := lopa, lopb := lopb } }

/-- The state a step leaves. -/
def after (o : Host.Outcome State Fault Refusal) : State :=
  match o with
  | .next t => t
  | .fault _ => State.reset
  | .refused _ => State.reset

/-- The outcome is a next state. -/
def isNext (o : Host.Outcome State Fault Refusal) : Bool :=
  match o with
  | .next _ => true
  | .fault _ => false
  | .refused _ => false

/-- Then it is the next state that `after` shows. -/
theorem next_after {o : Host.Outcome State Fault Refusal} (h : isNext o = true) :
    o = .next (after o) := by
  cases o with
  | next t => rfl
  | fault r => cases h
  | refused r => cases h

/-- The hash state after one step. -/
def hashAfter (s : State) : HashState := (after (step s)).hash

/-- STATUS after an access to a state. -/
def statusAfter (s : State) (a : Access) : Word := (s.perform a).1.statusWord

/-! ### WellFormed refuses what no word can spell -/

theorem test_off_of_33_bits_refused : (Instr.rdblk (2 ^ 32)).wellFormed = false := by decide
theorem test_tail_off_of_33_bits_refused : (Instr.tail (2 ^ 32) 0).wellFormed = false := by decide
theorem test_cnt_of_16_refused : (Instr.tail 0 16).wellFormed = false := by decide
theorem test_bmix_off_of_33_bits_refused : (Instr.bmix (2 ^ 32)).wellFormed = false := by decide

/-! ### Words written out from R47 and R50 (T-ENC) -/

theorem test_word_nop :
    decode 0b0000000000000000000000000000000000000000000000000000000000000000 = .ok .nop := by decide
theorem test_word_init :
    decode 0b1000000000000000000000000000000000000000000000000000000000000001 =
      .ok (.init (BitVec.ofInt 32 (-0x80000000))) := by decide
theorem test_word_ldk :
    decode 0b0000000000000000000000000000000000000000000000000000000000000010 = .ok .ldk := by decide
theorem test_word_kxor :
    decode 0b0000000000000000000000000000000000000000000000000000000000000011 = .ok .kxor := by decide
theorem test_word_rdblk :
    decode 0b0000000000000000000011111111000000000000000000000000000000000100 =
      .ok (.rdblk 4080) := by decide
theorem test_word_tail :
    decode 0b0000000000000000000011111111110100000000000000000000001100000101 =
      .ok (.tail 4093 3) := by decide
theorem test_word_mix :
    decode 0b0000000000000000000000000000000000000000000000000000000000000110 = .ok .mix := by decide
theorem test_word_bmix :
    decode 0b1111111111111111111111111111111100000000000000000000000000000111 =
      .ok (.bmix 4294967295) := by decide
theorem test_word_wmix :
    decode 0b0000000000000000000000000000000000000000000000000000000000001000 = .ok .wmix := by decide
theorem test_word_fin :
    decode 0b0000000000000000000000000000000000000000000000000000000000001001 = .ok .fin := by decide
theorem test_word_reserved_opcode : decode 0x000000000000000A = .error .opcode := by decide
theorem test_word_opcode_before_rsv : decode 0x00000000000010FF = .error .opcode := by decide
theorem test_word_rsv_of_tail : decode 0x0000000000001005 = .error .rsvd := by decide
theorem test_word_imm_of_fin : decode 0x0000000100000009 = .error .rsvd := by decide
theorem test_words_encode :
    encode (.tail 16 15) = 0x0000001000000F05 ∧ encode (.init (-1)) = 0xFFFFFFFF00000001 ∧
      encode (.bmix 4081) = 0x00000FF100000007 := by decide

/-! ### One step of each command -/

/-- T-STATUS: NOP keeps DONE. -/
theorem test_nop :
    (after (step (inFlight 0x0 0 0 { afterInit with done := true }))).statusWord = 0xC := by decide

/-- T-INIT, seed -1: all 64 bits flip. -/
theorem test_init_minus_one :
    hashAfter (inFlight 0xffffffff00000001 0 0 State.reset) =
      { h1 := 0x6c971ac3d0950d8b, h2 := 0xa79232df70832c02, k1 := 0, k2 := 0
        c1 := 0x87c37b91114253d5, c2 := 0x4cf5ad432745937f } := by decide

/-- T-INIT, seed 0x7fffffff: the upper halves stay. -/
theorem test_init_largest_seed :
    hashAfter (inFlight 0x7fffffff00000001 0 0 State.reset) =
      { h1 := 0x9368e53c50950d8b, h2 := 0x586dcd20f0832c02, k1 := 0, k2 := 0
        c1 := 0x87c37b91114253d5, c2 := 0x4cf5ad432745937f } := by decide

/-- Section 2.5: LDK takes the latched operands, not OPA and OPB. -/
theorem test_ldk_latched :
    hashAfter (inFlight 0x02 5 6 { afterInit with opa := 7 }) =
      { afterInit.hash with k1 := 5, k2 := 6 } := by decide

/-- Section 2.5: KXOR 0x0f0f, 1 on 0x00ff, 0. -/
theorem test_kxor :
    hashAfter (inFlight 0x03 0x0f0f 0x1 { afterInit with hash := { afterInit.hash with k1 := 0x00ff } }) =
      { afterInit.hash with k1 := 0x0ff0, k2 := 0x1 } := by decide

/-- T-GETBLOCK, MASK32_QUIRK = 1. -/
theorem test_rdblk :
    hashAfter (inFlight 0x04 0 0 (withRamp afterInit)) =
      { afterInit.hash with k1 := 0x0000000004050607, k2 := 0x000000000c0d0e0f } := by decide

/-- T-GETBLOCK, MASK32_QUIRK = 0. -/
theorem test_rdblk_unmasked :
    hashAfter (inFlight 0x04 0 0
      (withRamp { afterInit with params := { Params.reference with mask32Quirk := false } })) =
      { afterInit.hash with k1 := 0x0001020304050607, k2 := 0x08090a0b0c0d0e0f } := by decide

/-- T-TAIL: the ninth byte goes to K2. -/
theorem test_tail_nine_bytes :
    hashAfter (inFlight 0x0000000000000905 0 0
      (withBytes [0x80, 0x81, 0x82, 0x83, 0x84, 0x85, 0x86, 0x87, 0x88] afterInit)) =
      { afterInit.hash with k1 := 0x8786858483828180, k2 := 0x88 } := by decide

/-- T-TAIL: "hello" again, and the XOR cancels. -/
theorem test_tail_cancels :
    hashAfter (inFlight 0x0000000000000505 0 0 (withBytes [0x68, 0x65, 0x6c, 0x6c, 0x6f]
      { afterInit with hash := { afterInit.hash with k1 := 0x0000006f6c6c6568 } })) =
      afterInit.hash := by decide

/-- T-ROUND, first row. -/
theorem test_mix :
    hashAfter (inFlight 0x06 0 0 afterInit) =
      { h1 := 0xc38417168f943a7c, h2 := 0xb07c05167500b018, k1 := 0, k2 := 0
        c1 := 0xa6d169d5d1c8b8c5, c2 := 0x80cc6250302a4511 } := by decide

/-- T-ROUND: BMIX 0 over 00..0f. -/
theorem test_bmix :
    hashAfter (inFlight 0x07 0 0 (withRamp afterInit)) =
      { h1 := 0xa0df28303ba90a18, h2 := 0xbc595fe704c71ea9
        k1 := 0x4e590fd347adc5dc, k2 := 0xa7d9e8924be5e0e7
        c1 := 0xa6d169d5d1c8b8c5, c2 := 0x80cc6250302a4511 } := by decide

/-- T-ROUND: WMIX 1, 2. -/
theorem test_wmix :
    hashAfter (inFlight 0x08 1 2 afterInit) =
      { h1 := 0x1e469cabf7f40789, h2 := 0x6f10a15c8bc52212
        k1 := 0x9597f4ff7d5f7e57, k2 := 0xe349fb903a218c4f
        c1 := 0xa6d169d5d1c8b8c5, c2 := 0x80cc6250302a4511 } := by decide

/-- T-ROUND: WMIX 1, 2 with ROT_QUIRK = 0. -/
theorem test_wmix_rotl :
    hashAfter (inFlight 0x08 1 2 { afterInit with params := { Params.reference with rotQuirk := false } }) =
      { h1 := 0x85bda4d834d9b845, h2 := 0x17e8d69257bfe89e
        k1 := 0xba14f14094bd83c3, k2 := 0xc91eea23b2497ff1
        c1 := 0xa6d169d5d1c8b8c5, c2 := 0x80cc6250302a4511 } := by decide

/-- T-FIN: FIN 16 changes H1 and H2 alone. -/
theorem test_fin :
    hashAfter (inFlight 0x09 16 0 afterInit) =
      { afterInit.hash with h1 := 0xca7053353959865e, h2 := 0xf0df1984b3d8ba46 } := by decide

/-- T-STATUS: FIN sets DONE. -/
theorem test_fin_done : (after (step (inFlight 0x09 0 0 afterInit))).statusWord = 0xC := by decide

/-! ### Errors and the bus -/

/-- T-ENC: E_RSVD is checked before E_NOINIT, E_NOINIT before E_RANGE, and BUSY before all. -/
theorem test_check_order :
    statusAfter State.reset (.write 0x018 8 0x1006) = 0x302 ∧
    statusAfter State.reset (.write 0x018 8 0x00000FF200000F05) = 0x402 ∧
    statusAfter afterInit (.write 0x018 8 0x00000FF200000F05) = 0x50A ∧
    statusAfter (inFlight 0x1 0 0 State.reset) (.write 0x018 8 0x06) = 0x103 := by decide

/-- T-ENC: an accepted word sets BUSY. -/
theorem test_accept :
    (afterInit.perform (.write 0x018 8 0x0000100000000005)).1 =
      inFlight 0x0000100000000005 0 0 afterInit := by decide

/-- T-STATUS: bit 1 alone clears the error. -/
theorem test_status_write :
    statusAfter { State.reset with err := true, errcode := 4 } (.write 0x010 8 0xFFFFFFFFFFFFFFFF) = 0 ∧
    statusAfter { State.reset with err := true, errcode := 4 } (.write 0x010 8 0x1) = 0x402 := by decide

/-- T-BUS: ID, CFG, CMD, a reserved offset, OUT32. -/
theorem test_register_reads :
    (State.reset.perform (.read 0x000 8)).2 = .data 0x4D55524D33583634 ∧
    (State.reset.perform (.read 0x008 8)).2 = .data 0x0000100000000003 ∧
    (State.reset.perform (.read 0x018 8)).2 = .data 0 ∧
    (State.reset.perform (.read 0x068 8)).2 = .data 0 ∧
    ({ afterInit with hash := { afterInit.hash with h1 := 0x94031e01d8b84f36 } }.perform
      (.read 0x060 8)).2 = .data 0x0000000094031e01 := by decide

/-- T-BUS: the accesses with a bus error. -/
theorem test_bus_errors :
    (State.reset.perform (.read 0x030 4)).2 = .busError ∧
    (State.reset.perform (.read 0x034 8)).2 = .busError ∧
    (State.reset.perform (.write 0x1001 2 0)).2 = .busError ∧
    (State.reset.perform (.write 0x1000 3 0)).2 = .busError ∧
    (inFlight 0x06 0 0 afterInit).perform (.write 0x1000 1 0) =
      (inFlight 0x06 0 0 afterInit, .busError) := by decide

/-- T-BUS: "hell" written in one word, and its first two bytes read back. -/
theorem test_buffer_lanes :
    (State.reset.perform (.write 0x1000 4 0x6c6c6568)).1.ibuf =
      [(0, 0x68), (1, 0x65), (2, 0x6c), (3, 0x6c)] ∧
    ((State.reset.perform (.write 0x1000 4 0x6c6c6568)).1.perform (.read 0x1000 2)).2 =
      .data 0x6568 := by decide

/-- T-BUS: beyond an IBUF of 16 bytes. -/
theorem test_beyond_buffer :
    ({ State.reset with params := { Params.reference with ibufBytes := 16 } }.perform
      (.write 0x1010 1 0xAB)) =
      ({ State.reset with params := { Params.reference with ibufBytes := 16 } }, .written) ∧
    ({ State.reset with params := { Params.reference with ibufBytes := 16 } }.perform
      (.read 0x1010 8)).2 = .data 0 := by decide

/-! ### Host lines -/

/-- The responses of a host's run. -/
def responses (o : Host.Outcome HostRun Fault Refusal) : List Response :=
  match o with
  | .next h => h.block.outbox
  | .fault _ => []
  | .refused _ => []

/-- T-ENC: the word 0x1005 of `TAIL 0, 16` by R54's formula. -/
theorem test_line_tail_16 :
    lineWord (.tail 0 16) = 0x1005 ∧ decode 0x1005 = .error .rsvd ∧ lineWord (.tail 0 15) = 0xF05 := by
  decide

/-- R54: `wait` polls again while BUSY = 1. Complete fires before the third access, the second poll. -/
theorem test_wait_polls :
    responses (runLines [.run .nop] [false, false, true] State.reset) = [.written, .data 0x1, .data 0x0] := by
  decide

/-- R92: a store line past the window writes no register; the last index inside is the buffer's. -/
theorem test_store_past_window :
    responses (runLines [.stw 0x1018 8 0x0, .stw 0xFFF 1 0x5A] [] State.reset) = [.written] := by decide

/-- What a procedure returned, and its last responses. -/
def returned {α : Type} (o : Ended α) (n : Nat) : Option (HashResult α × List Response) :=
  match o with
  | .next r => some (r.result, r.host.block.outbox.reverse.take n)
  | .fault _ => none
  | .refused _ => none

/-- R76: a rejected MIX (E_NOINIT). The write, the poll and the read of STATUS are all the accesses made. -/
theorem test_fail_reads_status_alone :
    returned (runAndJudge [.run .mix] HostRun.returnPair [] State.reset) 9 =
      some (.fail, [.data 0x402, .data 0x402, .written]) := by decide

/-- R76: without an error, STATUS, H1 and H2 are read in this order. -/
theorem test_digest_reads :
    returned (runAndJudge [] HostRun.returnPair [] { afterInit with done := true }) 9 =
      some (.digest (0x9368e53c2f6af274, 0x586dcd208f7cd3fd),
        [.data 0x586dcd208f7cd3fd, .data 0x9368e53c2f6af274, .data 0xC]) := by decide

/-! ### Witnesses: cases that meet the obligations' hypotheses -/

/-- DecodeOfEncodeIsTheCommand, at the largest operands. -/
theorem witness_well_formed :
    (Instr.tail (2 ^ 32 - 1) 15).wellFormed = true ∧ (Instr.rdblk (2 ^ 32 - 1)).wellFormed = true ∧
      (Instr.bmix (2 ^ 32 - 1)).wellFormed = true ∧ (Instr.init (-1)).wellFormed = true := by decide

/-- EncodeOfDecodeIsTheWord and StepRunsTheFetchedWord. -/
theorem witness_decodes :
    decode 0x00000FF100000F05 = .ok (.tail 4081 15) ∧
      decodeTableWord 64 0x00000FF100000F05 = some (.tail 4081 15) := by decide

/-- A WMIX in flight after INIT, with nothing to come. -/
def wmixRunning : State := inFlight 0x08 1 2 afterInit

/-- StepRunsTheCommandInFlight, StepPerformsTheAccess: the two forms of the inbox, and an access to come.
HostCannotDisturbTheCommand, BusyBlockDropsTheWord and BusyReadsAreOpenOrExact, the first clauses. -/
theorem witness_in_flight :
    wmixRunning.inflight = some { lcmd := 0x08, lopa := 1, lopb := 2 } ∧ decode 0x08 = .ok .wmix ∧
      wmixRunning.inbox = [] ∧
      { wmixRunning with inbox := [.complete] }.inbox = [.complete] ∧
      { wmixRunning with inbox := [.complete] }.inflight = some { lcmd := 0x08, lopa := 1, lopb := 2 } ∧
      { wmixRunning with inbox := [.access (.read 0x010 8)] }.inbox = [.access (.read 0x010 8)] := by
  decide

/-- CompleteDoesNothingWhileIdle. -/
theorem witness_idle :
    State.reset.inflight = none ∧ State.reset.inbox = [] ∧
      { State.reset with inbox := [.complete] }.inflight = none ∧
      { State.reset with inbox := [.complete] }.inbox = [.complete] := by decide

/-- The completion clauses of the ten commands: a command in flight on an initialised block. -/
theorem witness_commands_run :
    ([0x00#64, 0x2A00000001#64, 0x02#64, 0x03#64, 0x06#64, 0x08#64, 0x09#64].all fun v =>
      (inFlight v 1 2 afterInit).inflight == some { lcmd := v, lopa := 1, lopb := 2 } &&
        (inFlight v 1 2 afterInit).initd) = true := by decide

/-- RdblkPacksTheBlock, BmixIsRdblkThenMix: the last block of the buffer, and the first. -/
theorem witness_block_in_range :
    (inFlight 0x00000FF000000004 0 0 afterInit).initd = true ∧
      (inFlight 0x00000FF000000004 0 0 afterInit).inflight ≠ none ∧ 4080 < 2 ^ 32 ∧
      4080 + 16 ≤ afterInit.params.ibufBytes ∧ 0 + 16 ≤ afterInit.params.ibufBytes := by decide

/-- TailXorsTheBytes: the longest tail at the end, and the empty tail at the end. -/
theorem witness_tail_in_range :
    (inFlight 0x00000FF100000F05 0 0 afterInit).initd = true ∧
      (inFlight 0x00000FF100000F05 0 0 afterInit).inflight ≠ none ∧ 4081 < 2 ^ 32 ∧ 15 < 16 ∧
      4081 + 15 ≤ afterInit.params.ibufBytes ∧ 4096 + 0 ≤ afterInit.params.ibufBytes := by decide

/-- The clause on E_RSVD of the ten commands: for each opcode an idle block and a word with a field set
that the command does not use. -/
theorem witness_reserved_words :
    State.reset.inflight = none ∧
      ([(0x00#8, 0x1000#64), (0x01#8, 0x0101#64), (0x02#8, 0x0102#64), (0x03#8, 0x100000003#64),
          (0x04#8, 0x0104#64), (0x05#8, 0x80000005#64), (0x06#8, 0x100000006#64), (0x07#8, 0x0F07#64),
          (0x08#8, 0x1008#64), (0x09#8, 0x100000009#64)].all fun x =>
        x.2.extractLsb' 0 8 == x.1 &&
          (x.2.extractLsb' 12 20 != 0 || (x.1 != 0x05 && x.2.extractLsb' 8 4 != 0) ||
            (!([0x01, 0x04, 0x05, 0x07].contains x.1) && x.2.extractLsb' 32 32 != 0))) = true := by
  decide

/-- DoneFollowsTheLastCommand, CommandsKeepOperandsAndBuffer, AcceptedCommandCompletesWithoutError,
EveryStepKeepsTheInvariant: the invariant with a command in flight, and its completion. -/
theorem witness_invariant_in_flight :
    wmixRunning.Inv ∧ wmixRunning.inflight = some { lcmd := 0x08, lopa := 1, lopb := 2 } ∧
      decode 0x08 = .ok .wmix ∧ exec .wmix wmixRunning = .next (after (exec .wmix wmixRunning)) ∧
      step wmixRunning = .next (after (step wmixRunning)) :=
  ⟨by decide, by decide, by decide, next_after (by decide), next_after (by decide)⟩

/-- DoneFollowsTheLastCommand: FIN and NOP in flight. -/
theorem witness_done :
    (inFlight 0x09 0 0 afterInit).Inv ∧ decode 0x09 = .ok .fin ∧
      (inFlight 0x00 0 0 afterInit).Inv ∧ decode 0x00 = .ok .nop := by decide

/-- HashWrittenByItsCommandsAlone: no reset is next, and a register of each pair changes. -/
theorem witness_hash_written :
    wmixRunning.inbox = [] ∧ step wmixRunning = .next (after (step wmixRunning)) ∧
      (after (step wmixRunning)).hash.h1 ≠ wmixRunning.hash.h1 ∧
      (after (step wmixRunning)).hash.k1 ≠ wmixRunning.hash.k1 ∧
      (after (step wmixRunning)).hash.c1 ≠ wmixRunning.hash.c1 :=
  ⟨by decide, next_after (by decide), by decide, by decide, by decide⟩

/-- FirstErrorIsKept and the last clause of DoneFollowsTheLastCommand: each error, with ERR = 0 and
with ERR = 1. -/
theorem witness_errors :
    wmixRunning.issueError 0x06 = some .busy ∧
      State.reset.issueError 0x0A = some .opcode ∧
      State.reset.issueError 0x1006 = some .rsvd ∧
      State.reset.issueError 0x06 = some .noInit ∧
      afterInit.issueError 0x00000FF100000007 = some .range ∧ afterInit.err = false ∧
      { afterInit with err := true, errcode := 4 }.issueError 0x0A = some .opcode := by decide

/-- NothingBeforeInit: the reset state is idle with INITD = 0, the commands of both clauses are
well-formed, and a step without reset of an initialised block. -/
theorem witness_before_init :
    State.reset.inflight = none ∧ State.reset.initd = false ∧ Instr.nop.wellFormed = true ∧
      (Instr.init 0).wellFormed = true ∧ Instr.mix.wellFormed = true ∧ Instr.mix ≠ .nop ∧
      wmixRunning.initd = true ∧ step wmixRunning = .next (after (step wmixRunning)) :=
  ⟨by decide, by decide, by decide, by decide, by decide, by decide, by decide, next_after (by decide)⟩

/-- The premise "Instr.mix is no INIT" of NothingBeforeInit, and "no reset is next" of it and of
HashWrittenByItsCommandsAlone. -/
theorem witness_no_reset_next : (∀ seed, Instr.mix ≠ .init seed) ∧ ¬ resetsNext wmixRunning :=
  ⟨fun _ => Instr.noConfusion, fun ⟨_, _, h⟩ => by cases h⟩

/-- RangeCheckIsExact: both sides of each boundary. -/
theorem witness_range :
    afterInit.inflight = none ∧ afterInit.initd = true ∧ 4080 < 2 ^ 32 ∧ 15 < 16 ∧
      4080 + 16 ≤ afterInit.params.ibufBytes ∧ ¬ 4081 + 16 ≤ afterInit.params.ibufBytes ∧
      4081 + 15 ≤ afterInit.params.ibufBytes ∧ ¬ 4082 + 15 ≤ afterInit.params.ibufBytes := by decide

/-- IssueThenCompleteIsExec: an idle block, a command it accepts and one it rejects. -/
theorem witness_idle_issue :
    State.reset.inflight = none ∧ (Instr.init 42).wellFormed = true ∧
      State.reset.issueError (encode (.init 42)) = none ∧
      State.reset.issueError (encode .fin) = some .noInit := by decide

/-- StatusWriteClearsTheError: both values of bit 1. -/
theorem witness_status_bit : (0x2 : Word).getLsbD 1 = true ∧ (0xFD : Word).getLsbD 1 = false := by decide

/-- CfgReportsTheParameters and BusErrorsAreExactlyThese: the reference parameters and the smallest
buffer. -/
theorem witness_params :
    State.reset.params.wf ∧
      { State.reset with params := { Params.reference with ibufBytes := 16 } }.params.wf := by decide

/-- HashRegistersReadOnly, OutIsTheHighHalf, ReadsHaveNoSideEffect: an idle block. -/
theorem witness_idle_reads : afterInit.inflight = none ∧ 0x030#13 ∈ [0x030#13, 0x038#13] := by decide

/-- BusyReadsAreOpenOrExact: the first and the last offset of the buffer region. -/
theorem witness_buffer_region :
    wmixRunning.inflight ≠ none ∧ 0x1000 ≤ (0x1000#13).toNat ∧ 0x1000 ≤ (0x1FFF#13).toNat := by decide

/-- ReservedOffsetsReadZero: the first and the last reserved offset. -/
theorem witness_reserved_offsets :
    (∀ offset ∈ [0x068#13, 0xFF8#13],
      0x068 ≤ offset.toNat ∧ offset.toNat < 0x1000 ∧ offset.toNat % 8 = 0) := by decide

/-- BusErrorsAreExactlyThese: each way to misfit, at the edges of the two regions, and a busy write at
the first and the last byte of IBUF. -/
theorem witness_misfits :
    ((0xFF8#13).toNat < 0x1000 ∧ 4 ≠ 8) ∧ ((0xFFF#13).toNat < 0x1000 ∧ (0xFFF#13).toNat % 8 ≠ 0) ∧
      (0x1000 ≤ (0x1000#13).toNat ∧ 0 ∉ [1, 2, 4, 8]) ∧
      (0x1000 ≤ (0x1FFF#13).toNat ∧ (0x1FFF#13).toNat % 2 ≠ 0) ∧
      (wmixRunning.inflight ≠ none ∧ 0x1000 ≤ (0x1000#13).toNat ∧
        (0x1FFF#13).toNat < 0x1000 + wmixRunning.params.ibufBytes) := by decide

/-- BufferAccessMovesItsBytes and BusyBlockKeepsItsBuffer: the last word of IBUF, idle and busy; and a
byte just beyond an IBUF of 16 bytes. -/
theorem witness_buffer_access :
    0x1000 ≤ (0x1FF8#13).toNat ∧ 8 ∈ [1, 2, 4, 8] ∧ (0x1FF8#13).toNat % 8 = 0 ∧
      (0x1FF8#13).toNat - 0x1000 + 8 ≤ afterInit.params.ibufBytes ∧ afterInit.inflight = none ∧
      (0x1FF8#13).toNat - 0x1000 + 8 ≤ wmixRunning.params.ibufBytes ∧ wmixRunning.inflight ≠ none ∧
      0x1000 ≤ (0x1010#13).toNat ∧ 1 ∈ [1, 2, 4, 8] ∧ (0x1010#13).toNat % 1 = 0 ∧
      { Params.reference with ibufBytes := 16 }.ibufBytes < (0x1010#13).toNat - 0x1000 + 1 := by decide

/-- ResetAbandonsEverything: reset while a command is in flight, alone and with an access under way. -/
theorem witness_reset_next :
    { wmixRunning with inbox := [.reset none] }.inbox = [.reset none] ∧
      { wmixRunning with inbox := [.reset (some (.write 0x018 8 0x09))] }.inbox =
        [.reset (some (.write 0x018 8 0x09))] := by decide

/-- The reset state before the host writes INIT to CMD. -/
def initComing : State := { State.reset with inbox := [.access (.write 0x018 8 0x01)] }

/-- EveryStepKeepsTheInvariant: before an access, and before reset. -/
theorem witness_invariant :
    initComing.Inv ∧ step initComing = .next (after (step initComing)) ∧
      { wmixRunning with inbox := [.reset none] }.Inv ∧
      step { wmixRunning with inbox := [.reset none] } =
        .next (after (step { wmixRunning with inbox := [.reset none] })) :=
  ⟨by decide, next_after (by decide), by decide, next_after (by decide)⟩

/-- WordProceduresGiveTheDigest, its two clauses, and ByteProceduresGiveTheDigest. -/
theorem witness_procedures :
    ([] : List Word) = [] ∧ [(1 : Word)] ≠ [] ∧ State.reset.params.wf := by decide

/-- The state of an idle block whose last command was FIN. -/
def afterFin : State := { afterInit with done := true }

/-- The run of a host that did nothing yet. -/
def atStart (s : State) : HostRun := { block := { s with inbox := [] }, pace := [] }

/-- ProceduresJudgeStatusFirst, its two clauses: ERR = 1, DONE = 0, and neither. -/
theorem witness_judge :
    runLines [] [] { afterFin with err := true, errcode := 1 } =
      .next (atStart { afterFin with err := true, errcode := 1 }) ∧
    runLines [] [] afterInit = .next (atStart afterInit) ∧ afterInit.done = false ∧
    runLines [] [] afterFin = .next (atStart afterFin) ∧ afterFin.inflight = none ∧ afterFin.err = false ∧
      afterFin.done = true := ⟨rfl, rfl, rfl, rfl, rfl, rfl, rfl⟩

/-- CommandLineWordsFollowTheirFormulas: the last and first operands of its clauses. -/
theorem witness_line_words :
    (Instr.tail (2 ^ 32 - 1) 15).wellFormed = true ∧ 16 ≤ 16 ∧ 16 < 2 ^ 24 ∧ 16 ≤ 2 ^ 24 - 1 ∧
      2 ^ 24 - 1 < 2 ^ 24 := by decide

/-- StoreLineReachesTheBuffer: an idle block, and an index on each side of the window's end. -/
theorem witness_store_line : State.reset.inflight = none ∧ 0x1000 ≤ 0x1000 ∧ 0xFFF < 0x1000 := by decide

end Sys2Proof.Tests
end

section
/-! PROOFS. The invariant of the block: each operation keeps it, so every step does. -/

namespace Sys2Proof.Machine

/-! ### What the parts of the invariant say -/

/-- The codes of R86 are those from 1 to 5. -/
theorem CmdError.code_bounds (e : CmdError) : 1 ≤ e.code.toNat ∧ e.code.toNat ≤ 5 := by
  cases e <;> decide

/-- The two checks of a command's own (R52) pass. -/
theorem State.commandError_eq_none {s : State} {i : Instr} :
    s.commandError i = none ↔
      (needsInit i = true → s.initd = true) ∧ ibufReach i ≤ s.params.ibufBytes := by
  unfold State.commandError
  cases s.initd <;> cases needsInit i <;> simp

/-- The commands that run before an INIT has completed (R88). -/
theorem needsInit_eq_false {i : Instr} :
    needsInit i = false ↔ i = .nop ∨ ∃ seed, i = .init seed := by
  cases i <;> simp [needsInit]

/-- A record in flight spells a command whose own checks pass. -/
theorem State.inflightAccepted_iff {s : State} :
    s.inflightAccepted = true ↔
      ∀ f, s.inflight = some f → ∃ i, decode f.lcmd = .ok i ∧ s.commandError i = none := by
  unfold State.inflightAccepted
  cases s.inflight with
  | none => simp
  | some f => cases hd : decode f.lcmd <;> simp [hd]

theorem State.inflightAccepted_of_idle {s : State} (h : s.inflight = none) :
    s.inflightAccepted = true := by
  simp [State.inflightAccepted, h]

/-- Acceptance depends on the record, the parameters and INITD alone. -/
theorem State.inflightAccepted_congr {s t : State} (hf : t.inflight = s.inflight)
    (hp : t.params = s.params) (hi : t.initd = s.initd) :
    t.inflightAccepted = s.inflightAccepted := by
  simp only [State.inflightAccepted, hf, State.commandError_congr hp hi]

/-- A command that passes its checks and leaves INITD = 0 is a NOP, run before any INIT. -/
theorem State.eq_nop_of_admitted {s : State} {i : Instr} (hc : s.commandError i = none)
    (hi : initdAfter i s.initd = false) : i = .nop ∧ s.initd = false := by
  have hs : s.initd = false := by cases i <;> simp_all [initdAfter]
  have hn : needsInit i = false := by
    simpa [hs] using (State.commandError_eq_none.mp hc).1
  obtain rfl | ⟨seed, rfl⟩ := needsInit_eq_false.mp hn
  · exact ⟨rfl, hs⟩
  · simp [initdAfter] at hi

/-! ### The invariant, one operation at a time

`inbox`, `outbox`, `draws`, OPA and OPB are not in it: a state that differs in these alone meets the same
invariant by definition. -/

/-- What leaves the parameters, IBUF, the hash state and the flags DONE and INITD alone need only keep the
legal error code and the acceptance of the record in flight. -/
theorem State.Inv.of_eq_except_error_and_inflight {s t : State} (h : s.Inv)
    (hp : t.params = s.params) (hm : t.ibuf = s.ibuf) (hh : t.hash = s.hash) (hd : t.done = s.done)
    (hi : t.initd = s.initd) (he : t.errcodeLegal) (hf : t.inflightAccepted = true) : t.Inv := by
  obtain ⟨hwf, hibuf, -, -, hzero⟩ := h
  refine ⟨hp ▸ hwf, ?_, he, hf, ?_⟩
  · simpa only [State.ibufLegal, hp, hm] using hibuf
  · simpa only [State.zeroBeforeInit, hh, hd, hi] using hzero

/-- R90: the first code is kept, or one of R86 is recorded. -/
theorem State.Inv.reject {s : State} (h : s.Inv) (e : CmdError) : (s.reject e).Inv := by
  have ⟨_, _, herr, hacc, _⟩ := h
  refine h.of_eq_except_error_and_inflight (by simp) (by simp) (by simp) (by simp) (by simp) ?_ ?_
  · cases hs : s.err with
    | true => simpa [State.errcodeLegal, hs] using herr
    | false => simpa [State.errcodeLegal, hs] using e.code_bounds
  · rwa [State.inflightAccepted_congr (s.reject_inflight e) (s.reject_params e) (s.reject_initd e)]

/-- R53: the record taken at acceptance is of the command that the checks let through. -/
theorem State.Inv.accept {s : State} {v : Word} (h : s.Inv) (hv : s.issueError v = none) :
    (s.accept v).Inv := by
  have ⟨_, _, herr, _, _⟩ := h
  obtain ⟨-, i, hd, hc⟩ := State.issueError_eq_none.mp hv
  refine h.of_eq_except_error_and_inflight rfl rfl rfl rfl rfl herr ?_
  refine State.inflightAccepted_iff.mpr fun f hf => ⟨i, ?_, ?_⟩
  · cases hf
    exact hd
  · rwa [State.commandError_congr (s.accept_params v) (s.accept_initd v)]

theorem State.Inv.issue {s : State} (h : s.Inv) (v : Word) : (s.issue v).Inv := by
  rcases s.issue_cases v with ⟨e, -, hs⟩ | ⟨hv, hs⟩
  · exact hs ▸ h.reject e
  · exact hs ▸ h.accept hv

/-- R23: ERR and ERRCODE are cleared together, or not at all. -/
theorem State.Inv.writeStatus {s : State} (h : s.Inv) (v : Word) : (s.writeStatus v).Inv := by
  have ⟨_, _, herr, hacc, _⟩ := h
  refine h.of_eq_except_error_and_inflight (by simp) (by simp) (by simp) (by simp) (by simp) ?_ ?_
  · cases hb : v[1] with
    | true => simp [State.errcodeLegal, hb]
    | false => simpa [State.errcodeLegal, hb] using herr
  · rwa [State.inflightAccepted_congr (s.writeStatus_inflight v) (s.writeStatus_params v)
      (s.writeStatus_initd v)]

/-- R28: a write of lanes that lie inside IBUF keeps the buffer's form and its bound. -/
theorem State.Inv.writeLanes {s : State} (h : s.Inv) {i width : Nat}
    (hin : i + width ≤ s.params.ibufBytes) (v : Word) : (s.writeLanes i v width).Inv := by
  obtain ⟨hwf, ⟨hmem, hbound⟩, herr, hacc, hzero⟩ := h
  have hibuf : ∀ c ∈ (s.writeLanes i v width).ibuf, c.1 < s.params.ibufBytes := by
    intro c hc
    rcases State.writeLanes_mem hc with hc | ⟨-, hlt⟩
    · exact hbound c hc
    · omega
  rw [State.writeLanes_eq]
  exact ⟨hwf, ⟨State.writeLanes_wf hmem i v width, hibuf⟩, herr, hacc, hzero⟩

/-- An access performed whole (R40), whatever it is. -/
theorem State.Inv.perform {s : State} (h : s.Inv) (a : Access) : (s.perform a).1.Inv := by
  cases a with
  | read offset width =>
    obtain ⟨n, hs⟩ := s.busRead_state offset width
    rw [State.perform, hs]
    exact h
  | write offset width v =>
    rw [State.perform]
    rcases s.busWrite_cases offset width v with hs | hs | hs | hs | hs | ⟨-, hin, hs⟩ <;> rw [hs]
    · exact h
    · exact h.issue v
    · exact h.writeStatus v
    · exact h
    · exact h
    · exact h.writeLanes hin v

/-- R24, R53, R88: a command whose checks pass keeps the invariant. Only a NOP runs while INITD stays 0, and
it leaves the hash state and DONE alone. -/
theorem State.Inv.ran {s : State} {i : Instr} (h : s.Inv) (hc : s.commandError i = none) :
    (s.ran i).Inv := by
  obtain ⟨hwf, ⟨hmem, hbound⟩, herr, -, hzero⟩ := h
  refine ⟨by simpa using hwf, ⟨by simpa using hmem, by simpa using hbound⟩, ?_,
    State.inflightAccepted_of_idle (by simp), ?_⟩
  · simpa [State.errcodeLegal] using herr
  · intro hi
    obtain ⟨rfl, hs⟩ := State.eq_nop_of_admitted hc (by simpa using hi)
    rw [State.ran_hash, effectOf_nop, State.ran_done]
    exact hzero hs

/-- The Complete step: under the invariant the record in flight spells a command whose checks pass. -/
theorem State.Inv.complete {s t : State} (h : s.Inv) (ht : s.complete = .next t) : t.Inv := by
  cases hf : s.inflight with
  | none =>
    rw [State.complete_idle hf] at ht
    cases ht
    exact h
  | some f =>
    have ⟨_, _, _, hacc, _⟩ := h
    obtain ⟨i, hd, hc⟩ := State.inflightAccepted_iff.mp hacc f hf
    rw [State.complete_inflight hf hd, exec_of_admitted hc] at ht
    cases ht
    exact h.ran hc

/-- R30, R102: after reset the invariant asks for legal parameters alone. -/
theorem State.inv_afterReset {s : State} (h : Params.wf s.params) : s.afterReset.Inv :=
  ⟨h, ⟨List.Pairwise.nil, by simp⟩, by simp [State.errcodeLegal],
    State.inflightAccepted_of_idle rfl, fun _ => ⟨rfl, rfl⟩⟩

/-- Reset, whether or not the access under way takes effect first and gets a response (I11). -/
theorem State.Inv.resetDuring {s : State} (h : s.Inv) (u : Option Access) : (s.resetDuring u).Inv := by
  cases u with
  | none => exact State.inv_afterReset h.1
  | some a =>
    have landed : (if Config.landsAtReset s.draws then (s.perform a).1 else s).Inv := by
      split
      · exact h.perform a
      · exact h
    simp only [State.resetDuring]
    split <;> exact State.inv_afterReset landed.1

/-- Every event of R43's total order keeps the invariant. -/
theorem State.Inv.handle {s t : State} (h : s.Inv) {e : Event} (ht : s.handle e = .next t) : t.Inv := by
  cases e with
  | access a =>
    cases ht
    exact h.perform a
  | complete => exact h.complete ht
  | reset u =>
    cases ht
    exact h.resetDuring u

/-- Settles O51: the step is the Complete step or the next event of the inbox, and each keeps the
invariant. -/
theorem everyStepKeepsTheInvariant : Obligations.EveryStepKeepsTheInvariant := by
  intro s t h ht
  cases hin : s.inbox with
  | nil => exact h.complete (step_of_nil hin ▸ ht)
  | cons e rest =>
    rw [step, State.advance, hin] at ht
    have hrest : ({ s with inbox := rest } : State).Inv := h
    exact hrest.handle ht

end Sys2Proof.Machine
end

section
/-! PROOFS. Accesses to one register at its offset of R34: what the read returns and what the write does. -/

namespace Sys2Proof.Machine

/-! ### Reads and writes by register -/

theorem State.readReg_of_exact {s : State} {r : Reg} (h : hiddenWhileBusy r = false) :
    s.readReg r = (s, s.regValue r) := by
  simp [State.readReg, h]

theorem State.readReg_idle {s : State} (h : s.inflight = none) (r : Reg) :
    s.readReg r = (s, s.regValue r) := by
  simp [State.readReg, (s.busy_eq_false).mpr h]

/-- The registers that R106 does not name read their value, idle or busy, and the read changes nothing. -/
theorem State.perform_read_of_exact (s : State) {r : Reg} (h : hiddenWhileBusy r = false) :
    s.perform (.read (regOffset r) 8) = (s, .data (s.regValue r)) := by
  rw [State.perform, State.busRead_reg, State.readReg_of_exact h]

/-- On an idle block every register reads its value, and the read changes nothing. -/
theorem State.perform_read_idle {s : State} (h : s.inflight = none) (r : Reg) :
    s.perform (.read (regOffset r) 8) = (s, .data (s.regValue r)) := by
  rw [State.perform, State.busRead_reg, State.readReg_idle h]

theorem State.perform_write_reg (s : State) (r : Reg) (v : Word) :
    s.perform (.write (regOffset r) 8 v) = (s.writeReg r v, .written) :=
  s.busWrite_reg r v

/-- The hash registers and OUT32, whose reads R106 leaves unspecified while BUSY = 1, ignore writes. -/
theorem State.writeReg_of_hidden (s : State) {r : Reg} (h : hiddenWhileBusy r = true) (v : Word) :
    s.writeReg r v = s := by
  cases r with
  | h1 | h2 | k1 | k2 | c1 | c2 | out32 => rfl
  | id | cfg | status | cmd | opa | opb => cases h

/-! ### The words of STATUS, CFG and OUT32, bit by bit -/

/-- A one-bit field moved to place `k` of a word is that bit of it. -/
theorem getLsbD_flag (b : Bool) {k : Nat} (hk : k < 64) (i : Nat) :
    ((BitVec.ofBool b).setWidth 64 <<< k).getLsbD i = (decide (i = k) && b) := by
  by_cases hik : i = k
  · subst hik
    simp [hk]
  · cases b with
    | false => simp
    | true =>
      simp [hik]
      omega

theorem getLsbD_flag_zero (b : Bool) (i : Nat) :
    ((BitVec.ofBool b).setWidth 64).getLsbD i = (decide (i = 0) && b) := by
  simpa using getLsbD_flag b (k := 0) (by omega) i

/-- R22's layout: one bit each for BUSY, ERR, DONE and INITD, and ERRCODE from bit 8 on. -/
theorem State.getLsbD_statusWord (s : State) (i : Nat) :
    s.statusWord.getLsbD i =
      (decide (i = 0) && s.busy || decide (i = 1) && s.err || decide (i = 2) && s.done
        || decide (i = 3) && s.initd || !decide (i < 8) && s.errcode.getLsbD (i - 8)) := by
  have hcode : (s.errcode.setWidth 64 <<< 8).getLsbD i =
      (!decide (i < 8) && s.errcode.getLsbD (i - 8)) := by
    rw [BitVec.getLsbD_shiftLeft, BitVec.getLsbD_setWidth]
    by_cases hi : i < 64
    · simp [hi, show i - 8 < 64 by omega]
    · simp [hi, BitVec.getLsbD_of_ge s.errcode (i - 8) (by omega)]
  simp only [State.statusWord, BitVec.getLsbD_or, getLsbD_flag_zero, getLsbD_flag _ (show 1 < 64 by omega),
    getLsbD_flag _ (show 2 < 64 by omega), getLsbD_flag _ (show 3 < 64 by omega), hcode]

theorem State.statusWord_initd (s : State) : s.statusWord.getLsbD 3 = s.initd := by
  rw [State.getLsbD_statusWord]
  simp

/-- From bit 8 on STATUS holds ERRCODE and then zeros. -/
theorem State.getLsbD_statusWord_add_eight (s : State) (i : Nat) :
    s.statusWord.getLsbD (8 + i) = s.errcode.getLsbD i := by
  simp [State.getLsbD_statusWord, show 8 + i ≠ 1 by omega, show 8 + i ≠ 2 by omega,
    show 8 + i ≠ 3 by omega]

theorem State.statusWord_reserved_low (s : State) : s.statusWord.extractLsb' 4 4 = 0 := by
  ext i hi
  rw [BitVec.getElem_extractLsb', State.getLsbD_statusWord]
  simp [show 4 + i ≠ 1 by omega, show 4 + i ≠ 2 by omega, show 4 + i ≠ 3 by omega,
    show 4 + i < 8 by omega]

theorem State.statusWord_errcode (s : State) : s.statusWord.extractLsb' 8 8 = s.errcode := by
  ext i hi
  rw [BitVec.getElem_extractLsb', State.getLsbD_statusWord_add_eight, BitVec.getLsbD_eq_getElem]

theorem State.statusWord_reserved_high (s : State) : s.statusWord.extractLsb' 16 48 = 0 := by
  ext i hi
  rw [BitVec.getElem_extractLsb', show 16 + i = 8 + (8 + i) by omega,
    State.getLsbD_statusWord_add_eight, BitVec.getLsbD_of_ge _ _ (by omega)]
  simp

/-- R25's layout: a bit for each quirk, and IBUFSZ from bit 32 on. -/
theorem getLsbD_cfgWord (p : Params) (i : Nat) :
    (cfgWord p).getLsbD i =
      (decide (i = 0) && p.mask32Quirk || decide (i = 1) && p.rotQuirk
        || (BitVec.ofNat 64 p.ibufBytes <<< 32).getLsbD i) := by
  simp only [cfgWord, BitVec.getLsbD_or, getLsbD_flag_zero, getLsbD_flag _ (show 1 < 64 by omega)]

theorem cfgWord_mask32Quirk (p : Params) : (cfgWord p).getLsbD 0 = p.mask32Quirk := by
  rw [getLsbD_cfgWord]
  simp

theorem cfgWord_rotQuirk (p : Params) : (cfgWord p).getLsbD 1 = p.rotQuirk := by
  rw [getLsbD_cfgWord]
  simp

theorem cfgWord_reserved (p : Params) : (cfgWord p).extractLsb' 2 30 = 0 := by
  ext i hi
  rw [BitVec.getElem_extractLsb', getLsbD_cfgWord]
  simp [show 2 + i ≠ 1 by omega, show 2 + i < 32 by omega]

theorem cfgWord_ibufSize (p : Params) :
    (cfgWord p).extractLsb' 32 32 = BitVec.ofNat 32 p.ibufBytes := by
  ext i hi
  rw [BitVec.getElem_extractLsb', getLsbD_cfgWord]
  simp [← BitVec.getLsbD_eq_getElem, BitVec.getLsbD_ofNat, hi, show 32 + i ≠ 1 by omega,
    show 32 + i < 64 by omega, show i < 64 by omega]

theorem out32Word_low (h : HashState) :
    (out32Word h).extractLsb' 0 32 = h.h1.extractLsb' 32 32 := by
  ext i hi
  simp [out32Word, hi, show i < 64 by omega]

theorem out32Word_high (h : HashState) : (out32Word h).extractLsb' 32 32 = 0 := by
  ext i hi
  simp [out32Word]

end Sys2Proof.Machine
end

section
/-! PROOFS. What an access keeps, what a step can be, and which hash registers a step changes. -/

namespace Sys2Proof.Machine

/-! ### What an access keeps -/

/-- The registers and flags that belong to the commands: the hash state, DONE and INITD; and the parameters. -/
def State.SameHash (t s : State) : Prop :=
  t.hash = s.hash ∧ t.done = s.done ∧ t.initd = s.initd ∧ t.params = s.params

theorem State.issue_sameHash (s : State) (v : Word) : (s.issue v).SameHash s := by
  rcases s.issue_cases v with ⟨e, -, h⟩ | ⟨-, h⟩ <;> simp [State.SameHash, h]

theorem State.writeLanes_sameHash (s : State) (i : Nat) (v : Word) (width : Nat) :
    (s.writeLanes i v width).SameHash s := by
  rw [State.writeLanes_eq]
  exact ⟨rfl, rfl, rfl, rfl⟩

/-- An access, whatever it is, leaves the hash state, DONE, INITD and the parameters alone. -/
theorem State.perform_sameHash (s : State) (a : Access) : (s.perform a).1.SameHash s := by
  cases a with
  | read offset width =>
    obtain ⟨n, h⟩ := s.busRead_state offset width
    rw [State.perform, h]
    exact ⟨rfl, rfl, rfl, rfl⟩
  | write offset width v =>
    rw [State.perform]
    rcases s.busWrite_cases offset width v with h | h | h | h | h | ⟨-, -, h⟩ <;> rw [h]
    · exact ⟨rfl, rfl, rfl, rfl⟩
    · exact s.issue_sameHash v
    · exact ⟨by simp, by simp, by simp, by simp⟩
    · exact ⟨rfl, rfl, rfl, rfl⟩
    · exact ⟨rfl, rfl, rfl, rfl⟩
    · exact s.writeLanes_sameHash _ v width

@[simp] theorem State.perform_params (s : State) (a : Access) : (s.perform a).1.params = s.params := by
  obtain ⟨-, -, -, hp⟩ := s.perform_sameHash a
  exact hp

@[simp] theorem State.perform_keeps_inbox (s : State) (a : Access) :
    (s.perform a).1.inbox = s.inbox :=
  congrArg (fun p => p.1.inbox) (s.perform_inbox s.inbox a)

/-! ### What a step does -/

/-- Reset, whatever is under way, leaves what `afterReset` leaves of some state with the same parameters and
the same coming events, and at most one more response. -/
theorem State.resetDuring_cases (s : State) (u : Option Access) :
    ∃ w : State, w.params = s.params ∧ w.inbox = s.inbox ∧
      (s.resetDuring u = w.afterReset ∨ ∃ r, s.resetDuring u = w.afterReset.respond r) := by
  cases u with
  | none => exact ⟨s, rfl, rfl, .inl rfl⟩
  | some a =>
    simp only [State.resetDuring]
    generalize hw : (if Config.landsAtReset s.draws then (s.perform a).1 else s) = w
    obtain ⟨hp, hi⟩ : w.params = s.params ∧ w.inbox = s.inbox := by
      subst hw
      split <;> simp
    refine ⟨{ w with draws := w.draws + 1 }, hp, hi, ?_⟩
    split
    · exact .inr ⟨_, rfl⟩
    · exact .inl rfl

/-- Everything a step can be: the Complete step, an access of the host, or a reset. -/
theorem step_cases {s t : State} (h : step s = .next t) :
    (Written.completesNext s ∧ ∃ es, ({ s with inbox := es } : State).complete = .next t) ∨
      (∃ a es, t = ({ s with inbox := es } : State).doAccess a) ∨
      (Written.resetsNext s ∧ ∃ u es, t = ({ s with inbox := es } : State).resetDuring u) := by
  cases hin : s.inbox with
  | nil => exact .inl ⟨.inl hin, s.inbox, step_of_nil hin ▸ h⟩
  | cons e rest =>
    cases e with
    | access a =>
      rw [step_of_access hin] at h
      exact .inr (.inl ⟨a, rest, by cases h; rfl⟩)
    | complete => exact .inl ⟨.inr ⟨rest, hin⟩, rest, step_of_complete hin ▸ h⟩
    | reset u =>
      rw [step_of_reset hin] at h
      exact .inr (.inr ⟨⟨u, rest, hin⟩, u, rest, by cases h; rfl⟩)

/-- The Complete step either runs the command in flight, or it leaves the hash state and the parameters. -/
theorem State.complete_cases {s t : State} (h : s.complete = .next t) :
    (t.hash = s.hash ∧ t.params = s.params) ∨
      ∃ f i, s.inflight = some f ∧ decode f.lcmd = .ok i ∧ t = s.ran i := by
  cases hf : s.inflight with
  | none =>
    rw [State.complete_idle hf] at h
    cases h
    exact .inl ⟨rfl, rfl⟩
  | some f =>
    cases hd : decode f.lcmd with
    | error e =>
      simp only [State.complete, State.fetched, hf, Option.map_some, hd] at h
      cases h
      exact .inl (by simp)
    | ok i =>
      rw [State.complete_inflight hf hd] at h
      rcases exec_cases h with ⟨-, rfl⟩ | ⟨e, -, rfl⟩
      · exact .inr ⟨f, i, rfl, hd, rfl⟩
      · exact .inl (by simp)

theorem State.complete_params {s t : State} (h : s.complete = .next t) : t.params = s.params := by
  rcases State.complete_cases h with ⟨-, hp⟩ | ⟨f, i, -, -, rfl⟩
  · exact hp
  · simp

/-- No step changes a parameter (R25). -/
theorem step_params {s t : State} (h : step s = .next t) : t.params = s.params := by
  rcases step_cases h with ⟨-, es, hc⟩ | ⟨a, es, rfl⟩ | ⟨-, u, es, rfl⟩
  · exact State.complete_params (s := { s with inbox := es }) hc
  · simp
  · obtain ⟨w, hp, -, hw | ⟨r, hw⟩⟩ := ({ s with inbox := es } : State).resetDuring_cases u <;>
      simp [hw, hp]

/-- A step that is no reset keeps the hash state, or it is the completion of a command in flight and leaves
that command's effect on it. -/
theorem step_hash {s t : State} (h : step s = .next t) (hr : ¬ Written.resetsNext s) :
    t.hash = s.hash ∨ (Written.completesNext s ∧ ∃ f i, s.inflight = some f ∧ decode f.lcmd = .ok i ∧
      t.hash = effectOf s i f s.hash) := by
  rcases step_cases h with ⟨hn, es, hc⟩ | ⟨a, es, rfl⟩ | ⟨hn, -⟩
  · rcases State.complete_cases hc with ⟨hh, -⟩ | ⟨f, i, hf, hd, rfl⟩
    · exact .inl hh
    · have he : effectOf ({ s with inbox := es } : State) i = effectOf s i :=
        effectOf_congr (s := s) (t := { s with inbox := es }) rfl (fun _ => rfl) i
      refine .inr ⟨hn, f, i, hf, hd, ?_⟩
      rw [State.ran_hash, State.latched_inflight hf, he]
  · exact .inl (({ s with inbox := es } : State).perform_sameHash a).1
  · exact absurd hn hr

/-! ### Which registers a command writes -/

/-- R17 to R19: INIT and the rounds may write all six registers; the loads leave all but K1 and K2, FIN all but
H1 and H2, and NOP leaves all. -/
theorem effectOf_cases (s : State) (i : Instr) (f : InFlight) (h : HashState) :
    i.mnemonic ∈ ["INIT", "MIX", "BMIX", "WMIX"] ∨
      (i.mnemonic ∈ ["RDBLK", "TAIL", "LDK", "KXOR"] ∧
        ∃ k1 k2, effectOf s i f h = { h with k1 := k1, k2 := k2 }) ∨
      (i = .fin ∧ ∃ h1 h2, effectOf s i f h = { h with h1 := h1, h2 := h2 }) ∨
      effectOf s i f h = h := by
  cases i with
  | nop => exact .inr (.inr (.inr (effectOf_nop s f h)))
  | init | mix | bmix | wmix => exact .inl (by simp [Instr.mnemonic])
  | ldk | kxor | rdblk | tail =>
    refine .inr (.inl ((and_iff_left_of_imp fun hm => effectOf_load_eq hm s f h).mpr ?_))
    simp [Instr.mnemonic]
  | fin => exact .inr (.inr (.inl ⟨rfl, effectOf_fin s f h ▸ finalizeHash_eq f.lopa h⟩))

theorem effectOf_changes_accumulators {s : State} {i : Instr} {f : InFlight} {h : HashState}
    (hne : (effectOf s i f h).h1 ≠ h.h1 ∨ (effectOf s i f h).h2 ≠ h.h2) :
    i.mnemonic ∈ ["INIT", "MIX", "BMIX", "WMIX", "FIN"] := by
  rcases effectOf_cases s i f h with hm | ⟨-, k1, k2, e⟩ | ⟨rfl, -⟩ | e
  · simp only [List.mem_cons] at hm ⊢
    tauto
  · simp [e] at hne
  · simp [Instr.mnemonic]
  · simp [e] at hne

theorem effectOf_changes_temporaries {s : State} {i : Instr} {f : InFlight} {h : HashState}
    (hne : (effectOf s i f h).k1 ≠ h.k1 ∨ (effectOf s i f h).k2 ≠ h.k2) :
    i.mnemonic ∈ ["INIT", "LDK", "KXOR", "RDBLK", "TAIL", "MIX", "BMIX", "WMIX"] := by
  rcases effectOf_cases s i f h with hm | ⟨hm, -⟩ | ⟨-, h1, h2, e⟩ | e
  · simp only [List.mem_cons] at hm ⊢
    tauto
  · simp only [List.mem_cons] at hm ⊢
    tauto
  · simp [e] at hne
  · simp [e] at hne

theorem effectOf_changes_constants {s : State} {i : Instr} {f : InFlight} {h : HashState}
    (hne : (effectOf s i f h).c1 ≠ h.c1 ∨ (effectOf s i f h).c2 ≠ h.c2) :
    i.mnemonic ∈ ["INIT", "MIX", "BMIX", "WMIX"] := by
  rcases effectOf_cases s i f h with hm | ⟨-, k1, k2, e⟩ | ⟨-, h1, h2, e⟩ | e
  · exact hm
  · simp [e] at hne
  · simp [e] at hne
  · simp [e] at hne

end Sys2Proof.Machine
end

section
/-! PROOFS. The statements about the state and its registers (spec/10_state.md). -/

namespace Sys2Proof.Machine

/-- Settles O23: under the invariant the command's checks pass, so it runs; a rejection keeps DONE. -/
theorem doneFollowsTheLastCommand : Obligations.DoneFollowsTheLastCommand := by
  refine ⟨fun s t f i hinv hf hd ht => ?_, fun s v e he => ?_⟩
  · obtain ⟨-, -, -, hacc, -⟩ := hinv
    obtain ⟨j, hj, hc⟩ := State.inflightAccepted_iff.mp hacc f hf
    cases hd.symm.trans hj
    rw [exec_of_admitted hc] at ht
    cases ht
    rw [State.ran_done]
    cases i <;> simp [doneAfter]
  · rw [State.issue, he]
    exact s.reject_done e

/-- Settles O24: a command runs or is rejected, and neither touches OPA, OPB, the parameters or IBUF. -/
theorem commandsKeepOperandsAndBuffer : Obligations.CommandsKeepOperandsAndBuffer := by
  intro i s t ht
  rcases exec_cases ht with ⟨-, rfl⟩ | ⟨e, -, rfl⟩ <;>
    exact ⟨by simp, by simp, by simp, by simp, State.ibufByte_congr (by simp) (by simp)⟩

/-- Settles O25: outside a reset only a completion writes the hash state, and each command's effect writes
its own registers alone. -/
theorem hashWrittenByItsCommandsAlone : Obligations.HashWrittenByItsCommandsAlone := by
  intro s t ht hr
  rcases step_hash ht hr with hh | ⟨hn, f, i, hf, hd, hh⟩
  · simp [hh]
  · rw [hh]
    exact ⟨fun hne => ⟨hn, f, i, hf, hd, effectOf_changes_accumulators hne⟩,
      fun hne => ⟨hn, f, i, hf, hd, effectOf_changes_temporaries hne⟩,
      fun hne => ⟨hn, f, i, hf, hd, effectOf_changes_constants hne⟩⟩

/-- Settles O26: the four are what `SameHash` says of an access. -/
theorem hostAccessKeepsTheHash : Obligations.HostAccessKeepsTheHash :=
  State.perform_sameHash

/-- Settles O35: the read gives the STATUS word, whose bits R22's layout says. -/
theorem statusReadsItsFields : Obligations.StatusReadsItsFields := fun s =>
  ⟨s.statusWord, s.perform_read_of_exact (r := .status) rfl, s.statusWord_busy, s.statusWord_err,
    s.statusWord_done, s.statusWord_initd, s.statusWord_reserved_low, s.statusWord_errcode,
    s.statusWord_reserved_high⟩

/-- Settles O36: the write is `writeStatus`, which looks at bit 1 alone. -/
theorem statusWriteClearsTheError : Obligations.StatusWriteClearsTheError := by
  intro s v
  have hw : s.perform (.write 0x010 8 v) = (s.writeStatus v, .written) := s.perform_write_reg .status v
  exact ⟨fun h => by rw [hw, State.writeStatus, if_pos h],
    fun h => by rw [hw, State.writeStatus, h, if_neg Bool.false_ne_true]⟩

/-- Settles O37: CFG is computed from the parameters, which no step changes; a legal IBUF_BYTES fits in
IBUFSZ. -/
theorem cfgReportsTheParameters : Obligations.CfgReportsTheParameters := by
  refine ⟨fun s hwf => ?_, fun s v => s.perform_write_reg .cfg v, fun s t ht => step_params ht⟩
  obtain ⟨-, -, hsize, -⟩ := hwf
  refine ⟨cfgWord s.params, s.perform_read_of_exact (r := .cfg) rfl, cfgWord_mask32Quirk _,
    cfgWord_rotQuirk _, cfgWord_reserved _, ?_⟩
  rw [cfgWord_ibufSize, BitVec.toNat_ofNat, Nat.mod_eq_of_lt (by omega)]

/-- Settles O38: R106 leaves the read of ID exact, and `writeReg` ignores the write. -/
theorem idIsConstant : Obligations.IdIsConstant := fun s v =>
  ⟨s.perform_read_of_exact (r := .id) rfl, s.perform_write_reg .id v⟩

/-- Settles O39: on an idle block the read gives `out32Word`, and OUT32 ignores writes. -/
theorem outIsTheHighHalf : Obligations.OutIsTheHighHalf := fun s =>
  ⟨fun h => ⟨out32Word s.hash, State.perform_read_idle h .out32, out32Word_low _, out32Word_high _⟩,
    s.perform_write_reg .out32⟩

/-- Settles O40: R106 leaves the reads of OPA and OPB exact, and `writeReg` stores into one of them. -/
theorem operandRegistersStore : Obligations.OperandRegistersStore := fun s v =>
  ⟨s.perform_write_reg .opa v, s.perform_write_reg .opb v, s.perform_read_of_exact (r := .opa) rfl,
    s.perform_read_of_exact (r := .opb) rfl⟩

/-- Settles O41: each offset is a hash register's. -/
theorem hashRegistersReadOnly : Obligations.HashRegistersReadOnly := by
  refine fun s => ⟨fun h => ⟨?_, ?_, ?_, ?_, ?_, ?_⟩, fun v offset ho => ?_⟩
  · exact State.perform_read_idle h .h1
  · exact State.perform_read_idle h .h2
  · exact State.perform_read_idle h .k1
  · exact State.perform_read_idle h .k2
  · exact State.perform_read_idle h .c1
  · exact State.perform_read_idle h .c2
  · have hregs : offset ∈ [Reg.h1, .h2, .k1, .k2, .c1, .c2].map regOffset := ho
    obtain ⟨r, hr, rfl⟩ := List.mem_map.mp hregs
    have hidden : ∀ r ∈ [Reg.h1, .h2, .k1, .k2, .c1, .c2], hiddenWhileBusy r = true := by decide
    rw [s.perform_write_reg, s.writeReg_of_hidden (hidden r hr)]

/-- Settles O48: each read is of a register that reads its value. -/
theorem resetGivesTheStatedValues : Obligations.ResetGivesTheStatedValues :=
  ⟨rfl, rfl, rfl, State.reset.perform_read_of_exact (r := .status) rfl, rfl, rfl,
    State.reset.perform_read_of_exact (r := .cfg) rfl, State.reset.perform_read_of_exact (r := .id) rfl⟩

/-- Settles O49: whatever was under way, the state is one that `afterReset` leaves, with at most one response
more. -/
theorem resetAbandonsEverything : Obligations.ResetAbandonsEverything := by
  intro s u rest hin
  refine ⟨_, step_of_reset hin, ?_⟩
  obtain ⟨w, hp, hi, hw | ⟨r, hw⟩⟩ := ({ s with inbox := rest } : State).resetDuring_cases u <;>
    simp [hw, hp, hi]

/-- Settles O50: the parameters at reset are legal, and after a reset the invariant asks for no more. -/
theorem resetMeetsTheInvariant : Obligations.ResetMeetsTheInvariant :=
  State.inv_afterReset (s := State.reset) (by decide)

end Sys2Proof.Machine
end

section
/-! PROOFS. What an access answers in each region of R34: reserved offsets, IBUF, and beyond IBUF; and that a
read of an idle block changes nothing. -/

namespace Sys2Proof.Machine

/-! ### The address map -/

theorem regOffset_lt (r : Reg) : (regOffset r).toNat < 0x068 := by
  cases r <;> decide

theorem regOffset_of_regAt {offset : BitVec 13} {r : Reg} (h : regAt offset = some r) :
    regOffset r = offset := by
  simpa using List.find?_some h

/-- R34: no register lies at 0x068 or above. -/
theorem regAt_reserved {offset : BitVec 13} (h : 0x068 ≤ offset.toNat) : regAt offset = none := by
  cases hr : regAt offset with
  | none => rfl
  | some r =>
    have hlt := regOffset_lt r
    rw [regOffset_of_regAt hr] at hlt
    omega

theorem inRegisterRegion_eq_true {offset : BitVec 13} :
    inRegisterRegion offset = true ↔ offset.toNat < 0x1000 := by
  simp [inRegisterRegion]

theorem inRegisterRegion_eq_false {offset : BitVec 13} :
    inRegisterRegion offset = false ↔ 0x1000 ≤ offset.toNat := by
  simp [inRegisterRegion]

/-- R35: a register access is 8 bytes wide and 8-byte aligned. -/
theorem wellSized_register {offset : BitVec 13} {width : Nat} (h : offset.toNat < 0x1000) :
    wellSized offset width = true ↔ width = 8 ∧ offset.toNat % 8 = 0 := by
  simp [wellSized, inRegisterRegion_eq_true.mpr h]

/-- R37: a buffer access is 1, 2, 4 or 8 bytes wide and naturally aligned. -/
theorem wellSized_buffer {offset : BitVec 13} {width : Nat} (h : 0x1000 ≤ offset.toNat) :
    wellSized offset width = true ↔ width ∈ [1, 2, 4, 8] ∧ offset.toNat % width = 0 := by
  simp [wellSized, inRegisterRegion_eq_false.mpr h]

/-! ### Reserved offsets -/

section
variable {offset : BitVec 13} (hlo : 0x068 ≤ offset.toNat) (hhi : offset.toNat < 0x1000)
  (halign : offset.toNat % 8 = 0)
include hlo hhi halign

theorem State.perform_read_reserved (s : State) : s.perform (.read offset 8) = (s, .data 0) := by
  simp [State.perform, State.busRead, (wellSized_register hhi).mpr ⟨rfl, halign⟩,
    inRegisterRegion_eq_true.mpr hhi, regAt_reserved hlo]

theorem State.perform_write_reserved (s : State) (v : Word) :
    s.perform (.write offset 8 v) = (s, .written) := by
  simp [State.perform, State.busWrite, (wellSized_register hhi).mpr ⟨rfl, halign⟩,
    inRegisterRegion_eq_true.mpr hhi, regAt_reserved hlo]

end

/-! ### The buffer region -/

theorem State.insideIbuf_eq_true {s : State} {offset : BitVec 13} {width : Nat} :
    s.insideIbuf offset width = true ↔ ibufIndex offset + width ≤ s.params.ibufBytes := by
  simp [State.insideIbuf]

theorem State.insideIbuf_eq_false {s : State} {offset : BitVec 13} {width : Nat} :
    s.insideIbuf offset width = false ↔ s.params.ibufBytes < ibufIndex offset + width := by
  simp [State.insideIbuf]

section
variable {s : State} {offset : BitVec 13} {width : Nat} (hbuf : 0x1000 ≤ offset.toNat)
  (hsize : wellSized offset width = true)
include hbuf hsize

theorem State.perform_read_inside (hin : ibufIndex offset + width ≤ s.params.ibufBytes) :
    s.perform (.read offset width) = (s, .data (s.readLanes (ibufIndex offset) width)) := by
  simp [State.perform, State.busRead, hsize, inRegisterRegion_eq_false.mpr hbuf,
    State.insideIbuf_eq_true.mpr hin]

/-- R107: the write is refused while BUSY = 1. -/
theorem State.perform_write_inside (hin : ibufIndex offset + width ≤ s.params.ibufBytes) (v : Word) :
    s.perform (.write offset width v) =
      if s.busy then (s, .busError) else (s.writeLanes (ibufIndex offset) v width, .written) := by
  simp [State.perform, State.busWrite, hsize, inRegisterRegion_eq_false.mpr hbuf,
    State.insideIbuf_eq_true.mpr hin]

theorem State.perform_read_beyond (hout : s.params.ibufBytes < ibufIndex offset + width) :
    s.perform (.read offset width) = (s, .data 0) := by
  simp [State.perform, State.busRead, hsize, inRegisterRegion_eq_false.mpr hbuf,
    State.insideIbuf_eq_false.mpr hout]

theorem State.perform_write_beyond (hout : s.params.ibufBytes < ibufIndex offset + width) (v : Word) :
    s.perform (.write offset width v) = (s, .written) := by
  simp [State.perform, State.busWrite, hsize, inRegisterRegion_eq_false.mpr hbuf,
    State.insideIbuf_eq_false.mpr hout]

end

/-- The bytes of a read beyond its width are 0. -/
theorem State.extractLsb'_readLanes_outside (s : State) (i : Nat) {k width : Nat} (h : width ≤ k) :
    (s.readLanes i width).extractLsb' (8 * k) 8 = 0 := by
  ext b hb
  rw [BitVec.getElem_extractLsb', State.getLsbD_readLanes_outside s i (by omega)]
  simp

/-- The bytes of a read, lane by lane (R33). -/
theorem State.extractLsb'_readLanes (s : State) (i k : Nat) {width : Nat} (hw : width ≤ 8) :
    (s.readLanes i width).extractLsb' (8 * k) 8 = if k < width then s.ibufByte (i + k) else 0 := by
  split
  · exact s.extractLsb'_readLanes_inside i ‹_› hw
  · exact s.extractLsb'_readLanes_outside i (by omega)

/-! ### Reads of an idle block -/

theorem State.busRead_idle {s : State} (h : s.inflight = none) (offset : BitVec 13) (width : Nat) :
    (s.busRead offset width).1 = s := by
  unfold State.busRead
  split
  · rfl
  · split
    · split
      · rw [State.readReg_idle h]
      · rfl
    · split <;> rfl

end Sys2Proof.Machine
end

section
/-! PROOFS. The statements about the bus (spec/20_memory.md). -/

namespace Sys2Proof.Machine

/-- Settles O8: `doAccess` puts the response after those given, which `perform` leaves alone. -/
theorem stepPerformsTheAccess : Obligations.StepPerformsTheAccess := by
  intro s a rest hin
  refine ⟨_, _, Prod.mk.eta.symm, ?_⟩
  rw [step_of_access hin, State.doAccess_state, State.respond, State.perform_outbox]

/-- Settles O9: both steps are the Complete step, which does nothing while no command is in flight. -/
theorem completeDoesNothingWhileIdle : Obligations.CompleteDoesNothingWhileIdle := fun s h =>
  ⟨fun hin => (step_of_nil hin).trans (State.complete_idle h),
    fun rest hin => (step_of_complete hin).trans (State.complete_idle (s := { s with inbox := rest }) h)⟩

/-- Settles O43: no register lies at these offsets. -/
theorem reservedOffsetsReadZero : Obligations.ReservedOffsetsReadZero := fun s _ hlo hhi halign =>
  ⟨s.perform_read_reserved hlo hhi halign, s.perform_write_reserved hlo hhi halign⟩

/-- Settles O45: inside IBUF the access is `readLanes` or `writeLanes`, whose laws speak of each byte. -/
theorem bufferAccessMovesItsBytes : Obligations.BufferAccessMovesItsBytes := by
  intro s offset width v hbuf hwidth halign
  have hsize : wellSized offset width = true := (wellSized_buffer hbuf).mpr ⟨hwidth, halign⟩
  have hle : width ≤ 8 := (by decide : ∀ w ∈ [1, 2, 4, 8], w ≤ 8) width hwidth
  refine ⟨fun hin => ⟨⟨_, State.perform_read_inside hbuf hsize hin, ?_⟩, fun hidle => ?_⟩, fun hout =>
    ⟨State.perform_read_beyond hbuf hsize hout, State.perform_write_beyond hbuf hsize hout v⟩⟩
  · exact fun k _ => s.extractLsb'_readLanes _ k hle
  · have hlanes := s.writeLanes_eq (ibufIndex offset) v width
    refine ⟨(s.writeLanes (ibufIndex offset) v width).ibuf, ?_, ?_⟩ <;> rw [← hlanes]
    · rw [State.perform_write_inside hbuf hsize hin, (s.busy_eq_false).mpr hidle,
        if_neg Bool.false_ne_true]
    · exact ⟨fun k hk => s.ibufByte_writeLanes_inside _ v hk,
        fun j hj => s.ibufByte_writeLanes_outside v hj⟩

/-- Settles O47: a read draws at most, and on an idle block not even that. -/
theorem readsHaveNoSideEffect : Obligations.ReadsHaveNoSideEffect := fun s offset width =>
  ⟨s.busRead_state offset width, fun h => State.busRead_idle h offset width⟩

end Sys2Proof.Machine
end

section
/-! PROOFS. Decoding and encoding are inverse: a word is its four fields, and it decodes to the command its
opcode names exactly when that command's encoding has the same fields. -/

namespace Sys2Proof

open Machine (lineWord)

/-! ### A word is its fields -/

theorem Fields.eq_iff {f g : Fields} :
    f = g ↔ f.imm = g.imm ∧ f.rsv = g.rsv ∧ f.cnt = g.cnt ∧ f.opc = g.opc := by
  cases f
  cases g
  simp

theorem fieldsOf_inj {v w : Word} : fieldsOf v = fieldsOf w ↔ v = w := by
  refine ⟨fun h => ?_, congrArg fieldsOf⟩
  rw [← wordOf_fieldsOf v, h, wordOf_fieldsOf]

theorem encode_eq_iff {i : Instr} {w : Word} : encode i = w ↔ fieldsOf w = encodeFields i := by
  rw [← fieldsOf_inj, fieldsOf_encode, eq_comm]

/-! ### The command an opcode names -/

/-- The command of R50's table with these fields' opcode and operands, whatever stands in the fields it does
not use. -/
def Fields.command? (f : Fields) : Option Instr :=
  match f.opc.toNat with
  | 0x00 => some .nop
  | 0x01 => some (.init f.imm)
  | 0x02 => some .ldk
  | 0x03 => some .kxor
  | 0x04 => some (.rdblk f.imm.toNat)
  | 0x05 => some (.tail f.imm.toNat f.cnt.toNat)
  | 0x06 => some .mix
  | 0x07 => some (.bmix f.imm.toNat)
  | 0x08 => some .wmix
  | 0x09 => some .fin
  | _ => none

/-- R51: the opcodes from 0x0A on are reserved. -/
theorem Fields.command?_eq_none {f : Fields} : f.command? = none ↔ 0x0A ≤ f.opc.toNat := by
  unfold Fields.command?
  split <;> simp_all
  omega

theorem Fields.command?_encodeFields {i : Instr} (h : i.wellFormed = true) :
    (encodeFields i).command? = some i := by
  cases i with
  | nop | init | ldk | kxor | mix | wmix | fin => rfl
  | rdblk off | bmix off =>
    have hoff : off < 4294967296 := by simpa [Instr.wellFormed] using h
    simp [Fields.command?, encodeFields, Nat.mod_eq_of_lt hoff]
  | tail off cnt =>
    obtain ⟨hoff, hcnt⟩ : off < 4294967296 ∧ cnt < 16 := by simpa [Instr.wellFormed] using h
    simp [Fields.command?, encodeFields, Nat.mod_eq_of_lt hoff, Nat.mod_eq_of_lt hcnt]

theorem Fields.wellFormed_of_command? {f : Fields} {i : Instr} (h : f.command? = some i) :
    i.wellFormed = true := by
  have himm := f.imm.isLt
  have hcnt := f.cnt.isLt
  unfold Fields.command? at h
  split at h <;> cases h <;> simp_all [Instr.wellFormed]

theorem Fields.opc_of_command? {f : Fields} {i : Instr} (h : f.command? = some i) :
    f.opc = (encodeFields i).opc := by
  unfold Fields.command? at h
  split at h <;> cases h <;> exact BitVec.eq_of_toNat_eq ‹_›

/-- R51's condition on the unused fields says that the encoding of the command has these very fields. -/
theorem Fields.eq_encodeFields_iff {f : Fields} {i : Instr} (h : f.command? = some i) :
    f = encodeFields i ↔ f.rsv = 0 ∧ (f.cnt ≠ 0 → f.opc = 0x05) ∧
      (f.imm ≠ 0 → f.opc ∈ [0x01#8, 0x04#8, 0x05#8, 0x07#8]) := by
  have hopc := Fields.opc_of_command? h
  obtain ⟨imm, rsv, cnt, opc⟩ := f
  unfold Fields.command? at h
  split at h <;> cases h <;> simp_all [encodeFields, and_comm, and_left_comm, and_assoc]

/-- R50, R51: a word whose opcode is defined decodes to the command it names if it is that command's word. -/
theorem decode_of_command? {w : Word} {i : Instr} (h : (fieldsOf w).command? = some i) :
    decode w = if fieldsOf w = encodeFields i then .ok i else .error .rsvd := by
  have hopc := Fields.opc_of_command? h
  unfold decode
  dsimp only
  generalize fieldsOf w = f at *
  obtain ⟨imm, rsv, cnt, opc⟩ := f
  unfold Fields.command? at h
  split at h <;> cases h <;> simp_all [encodeFields, ifUnusedZero, and_comm]

/-- Decoding is the inverse of encoding: a word decodes to a command exactly when the command is well-formed and
has that word. -/
theorem decode_eq_ok_iff {w : Word} {i : Instr} :
    decode w = .ok i ↔ i.wellFormed = true ∧ encode i = w := by
  rw [encode_eq_iff]
  constructor
  · intro h
    cases hc : (fieldsOf w).command? with
    | none => simp [decode_opcode (Fields.command?_eq_none.mp hc)] at h
    | some j =>
      rw [decode_of_command? hc] at h
      split at h
      · cases h
        exact ⟨Fields.wellFormed_of_command? hc, ‹_›⟩
      · cases h
  · rintro ⟨hwf, hf⟩
    rw [decode_of_command? (hf ▸ Fields.command?_encodeFields hwf), if_pos hf]

theorem decode_encode {i : Instr} (h : i.wellFormed = true) : decode (encode i) = .ok i :=
  decode_eq_ok_iff.mpr ⟨h, rfl⟩

theorem decode_eq_opcode_iff {w : Word} : decode w = .error .opcode ↔ 0x0A ≤ (fieldsOf w).opc.toNat := by
  refine ⟨fun h => Fields.command?_eq_none.mp ?_, decode_opcode⟩
  cases hc : (fieldsOf w).command? with
  | none => rfl
  | some i =>
    rw [decode_of_command? hc] at h
    split at h <;> cases h

/-- R51: the opcode is defined, and a field that the command does not use is not 0. -/
theorem decode_eq_rsvd_iff {w : Word} :
    decode w = .error .rsvd ↔ (fieldsOf w).opc.toNat < 0x0A ∧
      ((fieldsOf w).rsv ≠ 0 ∨ ((fieldsOf w).cnt ≠ 0 ∧ (fieldsOf w).opc ≠ 0x05) ∨
        ((fieldsOf w).imm ≠ 0 ∧ (fieldsOf w).opc ∉ [0x01#8, 0x04#8, 0x05#8, 0x07#8])) := by
  by_cases hopc : 0x0A ≤ (fieldsOf w).opc.toNat
  · simp [decode_opcode hopc, hopc]
  · obtain ⟨i, hc⟩ := Option.ne_none_iff_exists'.mp (mt Fields.command?_eq_none.mp hopc)
    have hrsvd : decode w = .error .rsvd ↔ ¬ fieldsOf w = encodeFields i := by
      rw [decode_of_command? hc]
      split <;> simp [*]
    rw [hrsvd, Fields.eq_encodeFields_iff hc, not_and_or, not_and_or, Classical.not_imp,
      Classical.not_imp, and_iff_right (Nat.lt_of_not_le hopc)]

/-! ### The rows of match and mask -/

theorem fieldsOf_and (v w : Word) :
    fieldsOf (v &&& w) =
      { imm := (fieldsOf v).imm &&& (fieldsOf w).imm, rsv := (fieldsOf v).rsv &&& (fieldsOf w).rsv
        cnt := (fieldsOf v).cnt &&& (fieldsOf w).cnt, opc := (fieldsOf v).opc &&& (fieldsOf w).opc } := by
  simp [fieldsOf, BitVec.extractLsb'_and]

/-- R50's mask of a command that uses IMM clears IMM alone. -/
theorem fieldsOf_and_immMask (v : Word) :
    fieldsOf (v &&& 0x00000000FFFFFFFF) = { fieldsOf v with imm := 0 } := by
  have hmask : fieldsOf 0x00000000FFFFFFFF =
      { imm := 0#32, rsv := .allOnes 20, cnt := .allOnes 4, opc := .allOnes 8 } := by decide
  simp only [fieldsOf_and, hmask, BitVec.and_allOnes, BitVec.and_zero]
  rfl

/-- R50's mask of TAIL clears IMM and CNT alone. -/
theorem fieldsOf_and_tailMask (v : Word) :
    fieldsOf (v &&& 0x00000000FFFFF0FF) = { fieldsOf v with imm := 0, cnt := 0 } := by
  have hmask : fieldsOf 0x00000000FFFFF0FF =
      { imm := 0#32, rsv := .allOnes 20, cnt := 0#4, opc := .allOnes 8 } := by decide
  simp only [fieldsOf_and, hmask, BitVec.and_allOnes, BitVec.and_zero]
  rfl

section
variable {v pattern : Word} {i : Instr} (hwf : i.wellFormed = true)
include hwf

/-- A row whose mask keeps every bit. -/
theorem fullRow_iff_decode (hp : encode i = pattern) :
    v &&& 0xFFFFFFFFFFFFFFFF = pattern ↔ decode v = .ok i := by
  have hmask : (0xFFFFFFFFFFFFFFFF : Word) = BitVec.allOnes 64 := by decide
  rw [decode_eq_ok_iff, and_iff_right hwf, hp, hmask, BitVec.and_allOnes, eq_comm]

/-- A row whose mask leaves out IMM, for the command with the word's IMM. -/
theorem immRow_iff_decode (hp : fieldsOf pattern = { encodeFields i with imm := 0 })
    (himm : (encodeFields i).imm = (fieldsOf v).imm) :
    v &&& 0x00000000FFFFFFFF = pattern ↔ decode v = .ok i := by
  rw [decode_eq_ok_iff, and_iff_right hwf, encode_eq_iff, ← fieldsOf_inj, fieldsOf_and_immMask, hp]
  simp [Fields.eq_iff, himm]

/-- A row whose mask leaves out IMM and CNT, for the command with the word's IMM and CNT. -/
theorem tailRow_iff_decode (hp : fieldsOf pattern = { encodeFields i with imm := 0, cnt := 0 })
    (himm : (encodeFields i).imm = (fieldsOf v).imm) (hcnt : (encodeFields i).cnt = (fieldsOf v).cnt) :
    v &&& 0x00000000FFFFF0FF = pattern ↔ decode v = .ok i := by
  rw [decode_eq_ok_iff, and_iff_right hwf, encode_eq_iff, ← fieldsOf_inj, fieldsOf_and_tailMask, hp]
  simp [Fields.eq_iff, himm, hcnt]

end

/-! ### The words of command lines -/

/-- `OFF << 32` fills IMM, whatever OFF is. -/
theorem setWidth_ofNat_shiftLeft_32 (off : Nat) :
    (BitVec.ofNat 32 off).setWidth 64 <<< 32 = BitVec.ofNat 64 off <<< 32 := by
  refine BitVec.eq_of_getLsbD_eq fun i _ => ?_
  simp only [BitVec.getLsbD_shiftLeft, BitVec.getLsbD_setWidth, BitVec.getLsbD_ofNat]
  by_cases h : i < 32
  · simp [h]
  · simp [show i - 32 < 32 by omega]

/-- `CNT << 8` fills the CNT field with CNT's low four bits, and RSV with the bits above them. -/
theorem ofNat_shiftLeft_8 {cnt : Nat} (h : cnt < 2 ^ 24) :
    BitVec.ofNat 64 cnt <<< 8 = ((BitVec.ofNat 20 (cnt / 16)).setWidth 64 <<< 12) |||
      ((BitVec.ofNat 4 cnt).setWidth 64 <<< 8) := by
  refine BitVec.eq_of_getLsbD_eq fun i _ => ?_
  have htop : 32 ≤ i → cnt.testBit (i - 8) = false := fun hi =>
    Nat.testBit_lt_two_pow (h.trans_le (Nat.pow_le_pow_right (by omega) (by omega)))
  have hrsv : 12 ≤ i → (cnt / 16).testBit (i - 12) = cnt.testBit (i - 8) := fun hi => by
    rw [show 16 = 2 ^ 4 from rfl, Nat.testBit_div_two_pow, show i - 12 + 4 = i - 8 by omega]
  simp only [BitVec.getLsbD_or, BitVec.getLsbD_shiftLeft, BitVec.getLsbD_setWidth,
    BitVec.getLsbD_ofNat]
  rcases (by omega : i < 8 ∨ (8 ≤ i ∧ i < 12) ∨ (12 ≤ i ∧ i < 32) ∨ 32 ≤ i) with hi | hi | hi | hi
  · simp [hi, show i < 12 by omega]
  · simp [show ¬ i < 8 by omega, hi.2, show i - 8 < 4 by omega]
  · simp [show ¬ i < 8 by omega, show ¬ i < 12 by omega, show ¬ i - 8 < 4 by omega,
      show i - 12 < 20 by omega, show i - 8 < 64 by omega, show i - 12 < 64 by omega, hrsv hi.1]
  · simp [show ¬ i < 8 by omega, show ¬ i < 12 by omega, show ¬ i - 8 < 4 by omega,
      show ¬ i - 12 < 20 by omega, htop hi]

/-- The fields of the word that a TAIL line writes: a CNT above 15 spills into RSV. -/
theorem lineWord_tail {cnt : Nat} (off : Nat) (h : cnt < 2 ^ 24) :
    lineWord (.tail off cnt) =
      wordOf { imm := .ofNat 32 off, rsv := .ofNat 20 (cnt / 16), cnt := .ofNat 4 cnt, opc := 0x05 } := by
  simp only [lineWord, wordOf, ofNat_shiftLeft_8 h, setWidth_ofNat_shiftLeft_32, BitVec.or_assoc]
  rfl

/-- For a well-formed command R54's formula is the encoding. -/
theorem lineWord_eq_encode {i : Instr} (h : i.wellFormed = true) : lineWord i = encode i := by
  cases i with
  | nop | ldk | kxor | mix | wmix | fin => decide
  | init seed => simp [lineWord, encode, encodeFields, wordOf]
  | rdblk off | bmix off =>
    simp [lineWord, encode, encodeFields, wordOf, setWidth_ofNat_shiftLeft_32]
  | tail off cnt =>
    obtain ⟨-, hcnt⟩ : off < 4294967296 ∧ cnt < 16 := by simpa [Instr.wellFormed] using h
    rw [lineWord_tail off (by omega), Nat.div_eq_of_lt hcnt]
    rfl

end Sys2Proof
end

section
/-! PROOFS. The statements about the command word (spec/30_encoding.md R47 to R51, R54). -/

namespace Sys2Proof.Machine

/-- Settles O1: one direction of `decode_eq_ok_iff`. -/
theorem decodeOfEncodeIsTheCommand : Obligations.DecodeOfEncodeIsTheCommand :=
  fun _ => decode_encode

/-- Settles O2: the other direction. -/
theorem encodeOfDecodeIsTheWord : Obligations.EncodeOfDecodeIsTheWord :=
  fun _ _ => decode_eq_ok_iff.mp

/-- Settles O3: with its operands taken from the word, each command's row keeps exactly the bits of the fields
that the command leaves fixed. -/
theorem wordDecodesAsItsRowSays : Obligations.WordDecodesAsItsRowSays := by
  intro v
  have hoff : (fieldsOf v).imm.toNat < 2 ^ 32 := (fieldsOf v).imm.isLt
  have hlen : (fieldsOf v).cnt.toNat < 16 := (fieldsOf v).cnt.isLt
  have himm : BitVec.ofNat 32 (fieldsOf v).imm.toNat = (fieldsOf v).imm := by simp
  have hcnt : BitVec.ofNat 4 (fieldsOf v).cnt.toNat = (fieldsOf v).cnt := by simp
  have htail : (Instr.tail (fieldsOf v).imm.toNat (fieldsOf v).cnt.toNat).wellFormed = true := by
    simpa [Instr.wellFormed, hlen] using hoff
  refine ⟨?_, ?_, ?_, ?_, ?_, ?_, ?_, ?_, ?_, ?_, decode_opcode⟩
  · exact fullRow_iff_decode rfl (by decide)
  · exact immRow_iff_decode rfl rfl rfl
  · exact fullRow_iff_decode rfl (by decide)
  · exact fullRow_iff_decode rfl (by decide)
  · exact immRow_iff_decode (decide_eq_true hoff) rfl himm
  · exact tailRow_iff_decode htail rfl himm hcnt
  · exact fullRow_iff_decode rfl (by decide)
  · exact immRow_iff_decode (decide_eq_true hoff) rfl himm
  · exact fullRow_iff_decode rfl (by decide)
  · exact fullRow_iff_decode rfl (by decide)

/-- Settles O4: the opcode names no command, or the word is not that command's. -/
theorem illegalWordsAreToldApart : Obligations.IllegalWordsAreToldApart :=
  fun _ => ⟨decode_eq_opcode_iff, decode_eq_rsvd_iff⟩

/-- Settles O5: closed words, decoded. -/
theorem vectorWordsDecode : Obligations.VectorWordsDecode := by
  unfold Obligations.VectorWordsDecode
  decide

/-- Settles O53: the formula is the encoding; a CNT above 15 sets a bit of RSV, which is E_RSVD. -/
theorem commandLineWordsFollowTheirFormulas : Obligations.CommandLineWordsFollowTheirFormulas := by
  refine ⟨fun i h => ?_, fun off cnt hlo hhi => ?_⟩
  · rw [lineWord_eq_encode h]
    exact ⟨rfl, decode_encode h⟩
  · have hrsv : BitVec.ofNat 20 (cnt / 16) ≠ 0 := by
      intro h
      have hn : cnt / 16 % 2 ^ 20 = 0 := congrArg BitVec.toNat h
      omega
    rw [lineWord_tail off hhi, decode_eq_rsvd_iff, fieldsOf_wordOf]
    exact ⟨show (0x05#8).toNat < 0x0A by decide, .inl hrsv⟩

end Sys2Proof.Machine
end

section
/-! PROOFS. From the write to CMD to completion (spec/30_encoding.md R52, R53): the checks in their order, and
what a host access leaves of a command in flight. -/

namespace Sys2Proof.Machine

/-! ### The checks of a CMD write -/

/-- On an idle block and the word of a command R52's checks come down to the two of the command's own. (Where OFF
is an operand, `simp` leaves two equal tests with two procedures to decide them, which `rfl` identifies.) -/
theorem firstFailing_encode {s : State} {i : Instr} (hidle : s.inflight = none) (hwf : i.wellFormed = true) :
    Written.firstFailing s (encode i) = (s.commandError i).map CmdError.code := by
  have hf : fieldsOf (encode i) = encodeFields i := fieldsOf_encode i
  simp only [fieldsOf, Fields.eq_iff] at hf
  obtain ⟨himm, hrsv, hcnt, hopc⟩ := hf
  simp only [Written.firstFailing, himm, hrsv, hcnt, hopc, hidle, State.commandError,
    apply_ite (Option.map CmdError.code), Option.map_some, Option.map_none, CmdError.code]
  cases i with
  | nop | init | ldk | kxor | mix | wmix | fin => simp [encodeFields, needsInit, ibufReach]
  | rdblk off | bmix off =>
    have hoff : off < 4294967296 := by simpa [Instr.wellFormed] using hwf
    simp [encodeFields, needsInit, ibufReach, Nat.mod_eq_of_lt hoff]
    rfl
  | tail off cnt =>
    obtain ⟨hoff, hlen⟩ : off < 4294967296 ∧ cnt < 16 := by simpa [Instr.wellFormed] using hwf
    simp [encodeFields, needsInit, ibufReach, Nat.mod_eq_of_lt hoff, Nat.mod_eq_of_lt hlen]
    rfl

/-- The checks that R52 writes on the word's fields are those that issue makes. -/
theorem firstFailing_eq (s : State) (v : Word) :
    Written.firstFailing s v = (s.issueError v).map CmdError.code := by
  cases hf : s.inflight with
  | some f => simp [Written.firstFailing, State.issueError, State.busy, hf, CmdError.code]
  | none =>
    have hb : s.busy = false := s.busy_eq_false.mpr hf
    cases hd : decode v with
    | ok i =>
      obtain ⟨hwf, rfl⟩ := decode_eq_ok_iff.mp hd
      simp [firstFailing_encode hf hwf, State.issueError, hb, hd]
    | error e =>
      simp only [State.issueError, hb, hd]
      cases e with
      | opcode =>
        have hopc := decode_eq_opcode_iff.mp hd
        simp only [fieldsOf] at hopc
        rw [Written.firstFailing, if_neg (by simp [hf]), if_pos hopc]
        rfl
      | rsvd =>
        obtain ⟨hopc, hused⟩ := decode_eq_rsvd_iff.mp hd
        simp only [fieldsOf] at hopc hused
        rw [Written.firstFailing, if_neg (by simp [hf]), if_neg (Nat.not_le_of_lt hopc), if_pos]
        · rfl
        · simpa [← BitVec.toNat_inj] using hused

/-- Settles O27: the write issues the word, and issue rejects it by the first check that fails or accepts it. -/
theorem cmdWriteChecksInOrder : Obligations.CmdWriteChecksInOrder := by
  intro s v
  have hw : s.perform (.write 0x018 8 v) = (s.issue v, .written) := s.perform_write_reg .cmd v
  rw [hw, firstFailing_eq]
  rcases s.issue_cases v with ⟨e, he, h⟩ | ⟨he, h⟩ <;> rw [he, h] <;> rfl

/-! ### Issue and then completion -/

theorem State.retire_idle {s : State} (h : s.inflight = none) : s.retire = s := by
  rw [State.retire, ← h]

/-- A command accepted on an idle block has the effect it has when `exec` runs it there. -/
theorem State.ran_accept {s : State} (h : s.inflight = none) (i : Instr) :
    (s.accept (encode i)).ran i = s.ran i := by
  have he : effectOf (s.accept (encode i)) i = effectOf s i :=
    effectOf_congr (s.accept_params _) (State.ibufByte_congr rfl rfl) i
  simp only [State.ran, he, State.latched_idle h, State.latched_inflight (s.accept_inflight _)]
  rfl

/-- Settles O32: the word decodes to the command, so issue makes the command's own checks and Complete runs
it. -/
theorem issueThenCompleteIsExec : Obligations.IssueThenCompleteIsExec := by
  intro s i hidle hwf
  have hd := decode_encode hwf
  have hissue : s.issueError (encode i) = s.commandError i := by
    simp [State.issueError, s.busy_eq_false.mpr hidle, hd]
  rcases s.issue_cases (encode i) with ⟨e, he, h⟩ | ⟨he, h⟩
  · have hr : (s.reject e).inflight = none := by simp [hidle]
    rw [h, State.complete_idle hr, exec_of_error (hissue ▸ he), State.retire_idle hr]
  · have hc : (s.accept (encode i)).commandError i = none := hissue ▸ he
    rw [h, State.complete_inflight (s.accept_inflight (encode i)) hd, exec_of_admitted hc,
      State.ran_accept hidle, exec_of_admitted (hissue ▸ he)]

/-! ### What an access leaves of the command in flight -/

/-- The states agree in the record in flight and in all that the command reads and writes. -/
def State.SameCommand (t s : State) : Prop :=
  t.SameHash s ∧ t.inflight = s.inflight ∧ ∀ j : Nat, t.ibufByte j = s.ibufByte j

/-- R87, R105, R107: while a command is in flight a CMD write is dropped and an IBUF write refused. -/
theorem State.perform_sameCommand {s : State} {f : InFlight} (h : s.inflight = some f) (a : Access) :
    (s.perform a).1.SameCommand s := by
  refine ⟨s.perform_sameHash a, ?_⟩
  cases a with
  | read offset width =>
    obtain ⟨n, hs⟩ := s.busRead_state offset width
    rw [State.perform, hs]
    exact ⟨rfl, fun _ => rfl⟩
  | write offset width v =>
    have hb : s.busy = true := s.busy_eq_true.mpr ⟨f, h⟩
    have hissue : s.issue v = s.reject .busy := by simp [State.issue, State.issueError, hb]
    rw [State.perform]
    rcases s.busWrite_cases offset width v with hs | hs | hs | hs | hs | ⟨hidle, -⟩
    · exact hs.symm ▸ ⟨rfl, fun _ => rfl⟩
    · rw [hs, hissue]
      exact ⟨by simp, State.ibufByte_congr (by simp) (by simp)⟩
    · rw [hs]
      exact ⟨by simp, State.ibufByte_congr (by simp) (by simp)⟩
    · exact hs.symm ▸ ⟨rfl, fun _ => rfl⟩
    · exact hs.symm ▸ ⟨rfl, fun _ => rfl⟩
    · simp [hb] at hidle

/-- A command in flight completes alike in states that agree in what it reads. -/
theorem exec_of_sameCommand {s u : State} {f : InFlight} (h : u.SameCommand s) (hf : s.inflight = some f)
    (i : Instr) : ∃ t v, exec i s = .next t ∧ exec i u = .next v ∧ v.SameCommand t := by
  obtain ⟨⟨hhash, hdone, hinitd, hparams⟩, hinflight, hbytes⟩ := h
  have hcheck : u.commandError i = s.commandError i := State.commandError_congr hparams hinitd i
  cases hc : s.commandError i with
  | none =>
    refine ⟨_, _, exec_of_admitted hc, exec_of_admitted (hcheck.trans hc),
      ⟨?_, by simp [hdone], by simp [hinitd], by simp [hparams]⟩, by simp, hbytes⟩
    rw [State.ran_hash, State.ran_hash, effectOf_congr hparams hbytes, hhash,
      State.latched_inflight (hinflight.trans hf), State.latched_inflight hf]
  | some e =>
    refine ⟨_, _, exec_of_error hc, exec_of_error (hcheck.trans hc),
      ⟨by simp [hhash], by simp [hdone], by simp [hinitd], by simp [hparams]⟩, by simp, fun j => ?_⟩
    have hr : ∀ w : State, (w.reject e).retire.ibufByte j = w.ibufByte j := fun w =>
      State.ibufByte_congr (by simp) (by simp) j
    rw [hr, hr, hbytes]

/-- Settles O34: the access leaves what the command reads. -/
theorem hostCannotDisturbTheCommand : Obligations.HostCannotDisturbTheCommand := by
  intro s f i a hf _
  obtain ⟨t, u, ht, hu, ⟨hhash, hdone, hinitd, -⟩, -, hbytes⟩ :=
    exec_of_sameCommand (State.perform_sameCommand hf a) hf i
  exact ⟨t, u, ht, hu, hhash, hdone, hinitd, hbytes⟩

end Sys2Proof.Machine
end

section
/-! PROOFS. The host's lines `wait` and `st.w` (spec/30_encoding.md R54), and the step that runs one command. -/

namespace Sys2Proof.Machine

/-! ### `wait` -/

theorem exec_inflight {i : Instr} {s t : State} (h : exec i s = .next t) : t.inflight = none := by
  rcases exec_cases h with ⟨-, rfl⟩ | ⟨e, -, rfl⟩ <;> simp

/-- The Complete step leaves the block idle. -/
theorem State.complete_inflight_eq_none {s t : State} (h : s.complete = .next t) : t.inflight = none := by
  cases hf : s.fetched with
  | none =>
    rw [State.complete, hf] at h
    cases h
    simpa [State.fetched] using hf
  | some d =>
    rw [State.complete, hf] at h
    cases d with
    | ok i => exact exec_inflight h
    | error e =>
      cases h
      rfl

/-- What a `wait` leaves of `s` after `k` polls that read BUSY = 1, where `t` is what the Complete step leaves. -/
def State.waited (s t : State) (out : List Response) (k : Nat) : State :=
  { t with
    inbox := []
    outbox := out ++ List.replicate k (.data s.statusWord) ++ [.data t.statusWord] }

theorem State.lastReadsBusy_waited (s t : State) (out : List Response) (k : Nat) :
    (s.waited t out k).lastReadsBusy = t.busy :=
  t.lastReadsBusy_poll _

/-- A poll with Complete before it is the last. -/
theorem HostRun.poll_now {s t : State} (h : s.complete = .next t) (out : List Response) {pace : List Bool}
    (hp : paceEvents pace = [.complete]) :
    HostRun.access { block := { s with inbox := [], outbox := out }, pace := pace } pollAccess =
      .next { block := s.waited t out 0, pace := pace.tail } := by
  rw [HostRun.access_now (State.complete_inbox [] out h) hp, doAccess_poll]
  simp [State.waited]
  rfl

theorem HostRun.poll_later (s : State) (out : List Response) (pace : List Bool) :
    HostRun.access { block := { s with inbox := [], outbox := out }, pace := false :: pace } pollAccess =
      .next { block := { s with inbox := [], outbox := out ++ [.data s.statusWord] }, pace := pace } := by
  rw [HostRun.access_later, doAccess_poll]
  rfl

/-- While the pace puts Complete off, `wait` polls a busy block again, and an idle one no more. -/
theorem waitFrom_polls {s t : State} (h : s.complete = .next t) (pace : List Bool) (out : List Response) :
    ∃ k rest, waitFrom pace { s with inbox := [], outbox := out } =
        .next { block := s.waited t out k, pace := rest } ∧ (0 < k → s.busy = true) := by
  have ht : t.busy = false := t.busy_eq_false.mpr (State.complete_inflight_eq_none h)
  induction pace generalizing out with
  | nil => exact ⟨0, [], HostRun.poll_now h out rfl, by simp⟩
  | cons b pace ih =>
    cases b with
    | true =>
      refine ⟨0, pace, ?_, by simp⟩
      rw [waitFrom, HostRun.poll_now h out rfl]
      simp only [State.lastReadsBusy_waited, ht]
      rfl
    | false =>
      rw [waitFrom, HostRun.poll_later]
      simp only [State.lastReadsBusy_poll]
      cases hs : s.busy with
      | true =>
        obtain ⟨k, rest, hw, -⟩ := ih (out ++ [.data s.statusWord])
        refine ⟨k + 1, rest, ?_, fun _ => rfl⟩
        rw [if_pos rfl, hw]
        simp [State.waited, List.replicate_succ]
      | false =>
        have hidle := s.busy_eq_false.mp hs
        rw [State.complete_idle hidle] at h
        cases h
        refine ⟨0, pace, ?_, by simp⟩
        simp [State.waited]

/-- `wait` is the one action of its line. -/
theorem runLines_wait (pace : List Bool) (s : State) :
    runLines [.wait] pace s =
      HostRun.acts { block := { s with inbox := [], outbox := s.outbox }, pace := pace } [.wait] := rfl

/-- Settles O54: `wait` polls, and the Complete step leaves the block idle. -/
theorem waitPollsUntilIdle : Obligations.WaitPollsUntilIdle := by
  intro s pace
  obtain ⟨t, h⟩ := s.complete_next
  obtain ⟨k, rest, hw, hk⟩ := waitFrom_polls h pace s.outbox
  refine ⟨t, k, rest, h, ?_, ?_, ?_⟩
  · rw [runLines_wait, HostRun.acts, HostRun.act, hw]
    rfl
  · rwa [State.statusWord_busy]
  · rw [State.statusWord_busy, State.busy_eq_false]
    exact State.complete_inflight_eq_none h

/-! ### Store lines -/

/-- A store line is its one action. -/
theorem runLines_stw (i width : Nat) (v : Word) (pace : List Bool) (s : State) :
    runLines [.stw i width v] pace s =
      HostRun.acts { block := { s with inbox := [] }, pace := pace } [.store (0x1000 + i) width v] := rfl

/-- Settles O55: inside the window the store is one access of an idle block, past it none. -/
theorem storeLineReachesTheBuffer : Obligations.StoreLineReachesTheBuffer := by
  intro s pace i width v hidle
  refine ⟨fun hi => ?_, fun hi => ?_, fun b => rfl⟩
  · rw [runLines_stw, HostRun.acts, HostRun.act, if_neg (by omega)]
    rfl
  · have ha := HostRun.access_idle (s := { s with inbox := [] }) hidle pace
      (.write (BitVec.ofNat 13 (0x1000 + i)) width v)
    rw [runLines_stw, HostRun.acts, HostRun.act, if_pos (by omega), ha, State.doAccess_state,
      State.perform_inbox, State.respond]
    simp [HostRun.acts]

/-! ### The step that runs one command -/

/-- Settles O6: either step is the Complete step, which runs the command in flight. -/
theorem stepRunsTheCommandInFlight : Obligations.StepRunsTheCommandInFlight := fun s _ _ hf hd =>
  ⟨fun hin => (step_of_nil hin).trans (State.complete_inflight hf hd),
    fun rest hin => (step_of_complete hin).trans
      (State.complete_inflight (s := { s with inbox := rest }) hf hd)⟩

theorem tableWord_64 (w : Nat) : tableWord 64 w = BitVec.ofNat 64 w := by
  apply BitVec.eq_of_toNat_eq
  simp [tableWord]

theorem decode_of_decodeTableWord {nbits w : Nat} {i : Instr} (h : decodeTableWord nbits w = some i) :
    decode (tableWord nbits w) = .ok i := by
  cases hd : decode (tableWord nbits w) <;> simp_all [decodeTableWord]

/-- Settles O7: the word is in flight and Complete is next. -/
theorem stepRunsTheFetchedWord : Obligations.StepRunsTheFetchedWord := by
  intro s w i h
  have hd := decode_of_decodeTableWord h
  have hin : (s.withFetchWord 64 w).inbox = .complete :: s.inbox := rfl
  rw [step_of_complete hin, State.complete_inflight (f := ⟨tableWord 64 w, s.opa, s.opb⟩) rfl hd,
    ← tableWord_64]
  rfl

end Sys2Proof.Machine
end

section
/-! PROOFS. What a command in flight completes with, and the errors its word can meet at issue, once for every
command. -/

namespace Sys2Proof.Machine

/-! ### Completion -/

/-- R53: a command in flight whose own checks pass completes with its effect on the latched operands. -/
theorem exec_of_inflight {i : Instr} {s : State} {f : InFlight} (hf : s.inflight = some f)
    (hc : s.commandError i = none) :
    exec i s = .next { s with
      hash := effectOf s i f s.hash
      done := doneAfter i s.done
      initd := initdAfter i s.initd
      inflight := none } := by
  rw [exec_of_admitted hc, State.ran, State.latched_inflight hf]

/-! ### The errors at issue -/

/-- The word of a command is checked for E_BUSY, and then by the command's own checks. -/
theorem State.issueError_encode {i : Instr} (hwf : i.wellFormed = true) (s : State) :
    s.issueError (encode i) = if s.inflight ≠ none then some .busy else s.commandError i := by
  cases hf : s.inflight <;> simp [State.issueError, State.busy, hf, decode_encode hwf]

/-- R51, R52: on an idle block a word that is E_RSVD to the decoder is rejected with E_RSVD. -/
theorem State.issueError_of_rsvd {s : State} {v : Word} (hidle : s.inflight = none)
    (hd : decode v = .error .rsvd) : s.issueError v = some .rsvd := by
  simp [State.issueError, s.busy_eq_false.mpr hidle, hd, CmdError.ofDecode]

theorem opc_encodeFields_lt (i : Instr) : (encodeFields i).opc.toNat < 0x0A := by
  cases i <;> simp [encodeFields]

/-- R52, R86, R88: the errors that a command's word can meet, from the command's checks. `himm` and `hcnt` say
that a field is called unused only where R51 lets no word with the command's opcode set it. -/
theorem errorsAtIssue_of_wellFormed {i : Instr} {usesImm usesCnt : Bool} (hwf : i.wellFormed = true)
    (himm : usesImm = false → (encodeFields i).opc ∉ [0x01#8, 0x04#8, 0x05#8, 0x07#8])
    (hcnt : usesCnt = false → (encodeFields i).opc ≠ 0x05) :
    Written.errorsAtIssue i (encodeFields i).opc usesImm usesCnt (needsInit i) (ibufReach i) := by
  refine ⟨fun s => ?_, fun s v hidle hopc hset => ?_⟩
  · simp [State.issueError_encode hwf, State.commandError]
  · have hopc' : (fieldsOf v).opc = (encodeFields i).opc := hopc
    refine State.issueError_of_rsvd hidle (decode_eq_rsvd_iff.mpr ?_)
    rw [hopc']
    refine ⟨opc_encodeFields_lt i, ?_⟩
    rcases hset with hrsv | ⟨hc, hcnt0⟩ | ⟨hi, himm0⟩
    · exact .inl hrsv
    · exact .inr (.inl ⟨hcnt0, hcnt hc⟩)
    · exact .inr (.inr ⟨himm0, himm hi⟩)

end Sys2Proof.Machine
end

section
/-! PROOFS. The statements about the control commands NOP and INIT (spec/40_control.md). -/

namespace Sys2Proof.Machine

/-- R59, R88: a command that neither needs INITD nor reads IBUF passes its own checks in every state. -/
theorem State.commandError_of_unconditional {i : Instr} (hn : needsInit i = false) (hr : ibufReach i = 0)
    (s : State) : s.commandError i = none := by
  simp [State.commandError_eq_none, hn, hr]

/-- R55, R57: the hash state of INIT with the constants as literals. -/
theorem initHash_eq (seed : BitVec 32) :
    initHash seed =
      { h1 := 0x9368e53c2f6af274 ^^^ seed.signExtend 64
        h2 := 0x586dcd208f7cd3fd ^^^ seed.signExtend 64
        k1 := 0
        k2 := 0
        c1 := 0x87c37b91114253d5
        c2 := 0x4cf5ad432745937f } := by
  simp only [initHash, seedOperand, iv1, iv2, c1Init, c2Init]

/-- Settles O11: NOP passes its checks in every state and its effect is the identity; its word is all 0. -/
theorem nopChangesNothing : Obligations.NopChangesNothing := by
  refine ⟨fun s f hf => ?_, by decide, errorsAtIssue_of_wellFormed (i := .nop) rfl (by decide) (by decide)⟩
  rw [exec_of_inflight hf (State.commandError_of_unconditional rfl rfl s), effectOf_nop]
  rfl

/-- Settles O12: INIT passes its checks in every state and loads `initHash seed`; its word is R54's formula. -/
theorem initStartsAHash : Obligations.InitStartsAHash := by
  intro seed
  refine ⟨fun s f hf => ?_, (lineWord_eq_encode (i := .init seed) rfl).symm,
    errorsAtIssue_of_wellFormed (i := .init seed) rfl nofun fun _ => by simp [encodeFields]⟩
  rw [exec_of_inflight hf (State.commandError_of_unconditional rfl rfl s), effectOf_init, initHash_eq]
  rfl

end Sys2Proof.Machine
end

section
/-! PROOFS. The READER unit, byte by byte (spec/41_operand_load.md R58, R61): the place in a word that a packed
block byte goes to, and the place in K1 and K2 that a tail byte is XORed into. -/

namespace Sys2Proof.Machine

/-! ### The big-endian word of a block -/

/-- R58: byte `j` of the packed word, from the least significant, is the one packed `j` before the last. -/
theorem extractLsb'_packBigEndian (bytes : List Byte) {j : Nat} (hj : j < 8) :
    (packBigEndian bytes).extractLsb' (8 * j) 8 = bytes.reverse.getD j 0 := by
  induction bytes using List.reverseRecOn generalizing j with
  | nil => simp [packBigEndian]
  | append_singleton bytes b ih =>
    have hpack : packBigEndian (bytes ++ [b]) = packBigEndian bytes <<< 8 ||| b.setWidth 64 := by
      simp [packBigEndian]
    rw [hpack, List.reverse_append]
    cases j with
    | zero =>
      ext i hi
      simp [hi, show i < 64 by omega, BitVec.getLsbD_eq_getElem]
    | succ j =>
      simp only [List.reverse_singleton, List.singleton_append, List.getD_cons_succ]
      rw [← ih (show j < 8 by omega)]
      ext i hi
      simp [show 8 * (j + 1) + i < 64 by omega, show ¬ 8 * (j + 1) + i < 8 by omega,
        show 8 * (j + 1) + i - 8 = 8 * j + i by omega, ← BitVec.getLsbD_eq_getElem,
        BitVec.getLsbD_of_ge b _ (show 8 ≤ 8 * (j + 1) + i by omega)]

/-- R58: the mask of MASK32_QUIRK keeps the low four bytes. -/
theorem extractLsb'_bmask : ∀ j < 8, bmask.extractLsb' (8 * j) 8 = if 4 ≤ j then 0 else BitVec.allOnes 8 := by
  decide

theorem extractLsb'_blockWord (mask32Quirk : Bool) (bytes : List Byte) {j : Nat} (hj : j < 8) :
    (blockWord mask32Quirk bytes).extractLsb' (8 * j) 8 =
      if mask32Quirk = true ∧ 4 ≤ j then 0 else bytes.reverse.getD j 0 := by
  rw [← extractLsb'_packBigEndian bytes hj]
  cases mask32Quirk with
  | false => simp [blockWord]
  | true =>
    rw [blockWord, if_pos rfl, BitVec.extractLsb'_and, extractLsb'_bmask j hj]
    split
    case isTrue h => simp [h]
    case isFalse h => simp only [h, and_false, if_false, BitVec.and_allOnes]

/-- R58: byte `j` of `getblock(o)` is `IBUF[o + 7 - j]`, or 0 where MASK32_QUIRK cuts it off. -/
theorem State.extractLsb'_getblock (s : State) (o : Nat) {j : Nat} (hj : j < 8) :
    (s.getblock o).extractLsb' (8 * j) 8 =
      if s.params.mask32Quirk = true ∧ 4 ≤ j then 0 else s.ibufByte (o + (7 - j)) := by
  have hbyte : ((List.range 8).map fun k => s.ibufByte (o + k)).reverse.getD j 0 =
      s.ibufByte (o + (7 - j)) := by
    simp [hj]
  rw [State.getblock, extractLsb'_blockWord _ _ hj, hbyte]

/-! ### The tail bytes -/

/-- A byte moved to place `i` of a word is the byte in that place, and the other bytes are 0. -/
theorem extractLsb'_setWidth_shiftLeft (b : Byte) (i : Nat) {j : Nat} (hj : j < 8) :
    (b.setWidth 64 <<< (8 * i)).extractLsb' (8 * j) 8 = if j = i then b else 0 := by
  ext k hk
  rw [BitVec.getElem_extractLsb', BitVec.getLsbD_shiftLeft, BitVec.getLsbD_setWidth]
  split
  case isTrue h =>
    subst h
    simp [show 8 * j + k < 64 by omega, show k < 64 by omega, BitVec.getLsbD_eq_getElem, hk]
  case isFalse h =>
    rcases Nat.lt_or_gt_of_ne h with hlt | hgt
    · simp [show 8 * j + k < 8 * i by omega]
    · simp [BitVec.getLsbD_of_ge b _ (show 8 ≤ 8 * j + k - 8 * i by omega)]

/-- The byte of K1 and K2 that tail byte `j` goes to (R61). -/
def HashState.tailPlace (h : HashState) (j : Nat) : Byte :=
  if 8 ≤ j then h.k2.extractLsb' (8 * (j - 8)) 8 else h.k1.extractLsb' (8 * j) 8

theorem HashState.tailPlace_k1 (h : HashState) {j : Nat} (hj : j < 8) :
    h.tailPlace j = h.k1.extractLsb' (8 * j) 8 := by
  simp [HashState.tailPlace, hj]

theorem HashState.tailPlace_k2 (h : HashState) (j : Nat) :
    h.tailPlace (j + 8) = h.k2.extractLsb' (8 * j) 8 := by
  simp [HashState.tailPlace]

/-- Tail byte `i` is XORed into its own place alone. -/
theorem tailPlace_xorTailByte (i : Nat) (b : Byte) (h : HashState) {j : Nat} (hj : j < 16) :
    (xorTailByte i b h).tailPlace j = h.tailPlace j ^^^ if j = i then b else 0 := by
  unfold xorTailByte HashState.tailPlace
  by_cases hi : 8 ≤ i <;> by_cases hk2 : 8 ≤ j
  · simp [hi, hk2, BitVec.extractLsb'_xor, extractLsb'_setWidth_shiftLeft b (i - 8) (show j - 8 < 8 by omega),
      show j - 8 = i - 8 ↔ j = i by omega]
  · simp [hi, hk2, show j ≠ i by omega]
  · simp [hi, hk2, show j ≠ i by omega]
  · simp [hi, hk2, BitVec.extractLsb'_xor, extractLsb'_setWidth_shiftLeft b i (show j < 8 by omega)]

/-- R61: the tail XORs each of its bytes into its place, and leaves the places past it alone. -/
theorem tailPlace_xorTail (tailByte : Nat → Byte) (n : Nat) (h : HashState) {j : Nat} (hj : j < 16) :
    (xorTail tailByte n h).tailPlace j = h.tailPlace j ^^^ if j < n then tailByte j else 0 := by
  induction n generalizing h with
  | zero => simp [xorTail]
  | succ n ih =>
    rw [xorTail, ih, tailPlace_xorTailByte n _ _ hj]
    rcases Nat.lt_trichotomy j n with hlt | rfl | hgt
    · simp [hlt, hlt.ne, show j < n + 1 by omega]
    · simp
    · simp [hgt.ne', show ¬ j < n by omega, show ¬ j < n + 1 by omega]

end Sys2Proof.Machine
end

section
/-! PROOFS. A command's checks and its completion on an initialised block, once for every command. -/

namespace Sys2Proof.Machine

/-- R59: with INITD = 1 the range check alone is left. -/
theorem State.commandError_of_initd {s : State} (h : s.initd = true) (i : Instr) :
    s.commandError i = if ibufReach i ≤ s.params.ibufBytes then none else some .range := by
  by_cases hr : ibufReach i ≤ s.params.ibufBytes <;> simp [State.commandError, h, hr]

/-- R53: with INITD = 1 a command in flight whose bytes are there completes, and INITD stays 1. -/
theorem exec_of_initd {i : Instr} {s : State} {f : InFlight} (hf : s.inflight = some f) (hi : s.initd = true)
    (hr : ibufReach i ≤ s.params.ibufBytes) :
    exec i s = .next { s with
      hash := effectOf s i f s.hash
      done := doneAfter i s.done
      inflight := none } := by
  have hinitd : initdAfter i s.initd = s.initd := by cases i <;> simp [initdAfter, hi]
  rw [exec_of_inflight hf (State.commandError_eq_none.mpr ⟨fun _ => hi, hr⟩), hinitd]

/-- R52: an idle initialised block accepts the word of a command exactly when its bytes are there. -/
theorem State.issueError_encode_of_initd {s : State} (hidle : s.inflight = none) (hi : s.initd = true)
    {i : Instr} (hwf : i.wellFormed = true) :
    s.issueError (encode i) = if ibufReach i ≤ s.params.ibufBytes then none else some .range := by
  rw [State.issueError_encode hwf, if_neg (by simp [hidle]), State.commandError_of_initd hi]

end Sys2Proof.Machine
end

section
/-! PROOFS. The statements about the commands that load K1 and K2 (spec/41_operand_load.md). -/

namespace Sys2Proof.Machine

/-- R49: OFF and CNT fit in their fields. -/
theorem wellFormed_tail {off cnt : Nat} (hoff : off < 2 ^ 32) (hcnt : cnt < 16) :
    (Instr.tail off cnt).wellFormed = true := by
  simpa [Instr.wellFormed] using ⟨hoff, hcnt⟩

/-- Settles O13: LDK reads no byte of IBUF, and its effect loads the latched operands. -/
theorem ldkLoadsTheOperands : Obligations.LdkLoadsTheOperands := by
  refine ⟨fun s f hf hi => ?_, by decide, errorsAtIssue_of_wellFormed (i := .ldk) rfl (by decide) (by decide)⟩
  rw [exec_of_initd hf hi (Nat.zero_le _), effectOf_ldk]
  rfl

/-- Settles O14: KXOR reads no byte of IBUF, and its effect XORs the latched operands in. -/
theorem kxorXorsTheOperands : Obligations.KxorXorsTheOperands := by
  refine ⟨fun s f hf hi => ?_, by decide, errorsAtIssue_of_wellFormed (i := .kxor) rfl (by decide) (by decide)⟩
  rw [exec_of_initd hf hi (Nat.zero_le _), effectOf_kxor]
  rfl

/-- Settles O15: the two words are `getblock`'s, whose bytes `State.extractLsb'_getblock` gives. -/
theorem rdblkPacksTheBlock : Obligations.RdblkPacksTheBlock := by
  intro off hoff
  have hwf : (Instr.rdblk off).wellFormed = true := decide_eq_true hoff
  refine ⟨fun s f hf hi hr => ⟨s.getblock off, s.getblock (off + 8), ?_, fun j hj =>
    ⟨s.extractLsb'_getblock off hj, s.extractLsb'_getblock (off + 8) hj⟩⟩,
    (lineWord_eq_encode hwf).symm, errorsAtIssue_of_wellFormed hwf nofun fun _ => by simp [encodeFields]⟩
  rw [exec_of_initd (i := .rdblk off) hf hi hr, effectOf_rdblk]
  rfl

/-- Settles O16: the tail changes K1 and K2 alone, and each of their bytes as `tailPlace_xorTail` says. -/
theorem tailXorsTheBytes : Obligations.TailXorsTheBytes := by
  intro off cnt hoff hcnt
  have hwf := wellFormed_tail hoff hcnt
  refine ⟨fun s f hf hi hr => ?_, (lineWord_eq_encode hwf).symm, errorsAtIssue_of_wellFormed hwf nofun nofun⟩
  obtain ⟨k1, k2, hk⟩ := xorTail_eq (fun j => s.ibufByte (off + j)) cnt s.hash
  have hplace {j : Nat} (hj : j < 16) := tailPlace_xorTail (fun j => s.ibufByte (off + j)) cnt s.hash hj
  rw [hk] at hplace
  refine ⟨k1, k2, ?_, fun j hj => ⟨?_, ?_⟩⟩
  · rw [exec_of_initd (i := .tail off cnt) hf hi hr, effectOf_tail, hk]
    rfl
  · simpa only [HashState.tailPlace_k1 _ hj] using hplace (show j < 16 by omega)
  · simpa only [HashState.tailPlace_k2] using hplace (show j + 8 < 16 by omega)

/-- Settles O31: on an idle initialised block the range check alone is left, and `ibufReach` is its bound. -/
theorem rangeCheckIsExact : Obligations.RangeCheckIsExact := fun _ off _ hidle hi hoff hcnt =>
  ⟨State.issueError_encode_of_initd hidle hi (i := .rdblk off) (decide_eq_true hoff),
    State.issueError_encode_of_initd hidle hi (i := .bmix off) (decide_eq_true hoff),
    State.issueError_encode_of_initd hidle hi (wellFormed_tail hoff hcnt)⟩

end Sys2Proof.Machine
end

section
/-! PROOFS. The rotate and the round of the MIX unit (spec/42_mix.md R64 to R66): the bits that each shift moves,
the two forms of the rotate, and the round with its literals. -/

namespace Sys2Proof.Machine

/-! ### The bits of a shifted word -/

section
variable {w : Nat} (x : BitVec w)

/-- A range at or above the distance of a left shift holds the bits that were that far below it. -/
theorem extractLsb'_shiftLeft_above {n lo len : Nat} (hlo : n ≤ lo) (hhi : lo + len ≤ w) :
    (x <<< n).extractLsb' lo len = x.extractLsb' (lo - n) len := by
  ext i hi
  simp [← BitVec.getLsbD_eq_getElem, show lo + i < w by omega, show ¬ lo + i < n by omega,
    show lo + i - n = lo - n + i by omega]

theorem extractLsb'_shiftLeft_below {n lo len : Nat} (h : lo + len ≤ n) :
    (x <<< n).extractLsb' lo len = 0#len := by
  ext i hi
  simp [show lo + i < n by omega]

theorem extractLsb'_ushiftRight (n lo len : Nat) :
    (x >>> n).extractLsb' lo len = x.extractLsb' (n + lo) len := by
  ext i hi
  simp [Nat.add_assoc]

theorem extractLsb'_ushiftRight_past {n lo len : Nat} (h : w ≤ n + lo) :
    (x >>> n).extractLsb' lo len = 0#len := by
  ext i hi
  simp [BitVec.getLsbD_of_ge x (n + (lo + i)) (by omega)]

/-- Rotating on to the full width undoes a rotate. -/
theorem rotateLeft_rotateLeft_sub {r : Nat} (h0 : 0 < r) (h : r < w) :
    (x.rotateLeft r).rotateLeft (w - r) = x := by
  have hr : r % w = r := Nat.mod_eq_of_lt h
  have hsub : (w - r) % w = w - r := Nat.mod_eq_of_lt (by omega)
  ext i hi
  simp only [BitVec.getElem_rotateLeft, hr, hsub]
  by_cases hlow : i < w - r
  · simp [hlow, show w - (w - r) + i - r = i by omega, show ¬ w - (w - r) + i < r by omega]
  · simp [hlow, show i - (w - r) < r by omega, show w - r + (i - (w - r)) = i by omega]

end

/-! ### The rotate -/

theorem rot_23 (rotQuirk : Bool) (x : Word) : rot rotQuirk x 23 = Written.rot23 rotQuirk x := by
  cases rotQuirk <;> rfl

/-- The distance 32 - 41 = -9 of the quirk form is 55 modulo 64 (R64). -/
theorem rot_41 (rotQuirk : Bool) (x : Word) : rot rotQuirk x 41 = Written.rot41 rotQuirk x := by
  cases rotQuirk <;> rfl

/-- R65: the middle range of the quirk form by 23 ORs the two halves of the word, so it is no permutation. -/
theorem rot_true_23_ranges (x : Word) :
    (rot true x 23).extractLsb' 23 32 = x.extractLsb' 0 32 ||| x.extractLsb' 32 32 ∧
    (rot true x 23).extractLsb' 55 9 = x.extractLsb' 32 9 ∧
    (rot true x 23).extractLsb' 0 23 = x.extractLsb' 9 23 := by
  have hrot : rot true x 23 = x <<< 23 ||| x >>> 9 := rot_23 true x
  simp only [hrot, BitVec.extractLsb'_or]
  refine ⟨?_, ?_, ?_⟩
  · rw [extractLsb'_shiftLeft_above x (by decide) (by decide), extractLsb'_ushiftRight]
  · rw [extractLsb'_shiftLeft_above x (by decide) (by decide), extractLsb'_ushiftRight_past x (by decide),
      BitVec.or_zero]
  · rw [extractLsb'_shiftLeft_below x (by decide), extractLsb'_ushiftRight, BitVec.zero_or]

/-- R65: the two shifts of the quirk form by 41 leave a gap of 32 bits that neither fills. -/
theorem rot_true_41_ranges (x : Word) :
    (rot true x 41).extractLsb' 9 32 = 0 ∧
    (rot true x 41).extractLsb' 41 23 = x.extractLsb' 0 23 ∧
    (rot true x 41).extractLsb' 0 9 = x.extractLsb' 55 9 := by
  have hrot : rot true x 41 = x <<< 41 ||| x >>> 55 := rot_41 true x
  simp only [hrot, BitVec.extractLsb'_or]
  refine ⟨?_, ?_, ?_⟩
  · rw [extractLsb'_shiftLeft_below x (by decide), extractLsb'_ushiftRight_past x (by decide), BitVec.zero_or]
    rfl
  · rw [extractLsb'_shiftLeft_above x (by decide) (by decide), extractLsb'_ushiftRight_past x (by decide),
      BitVec.or_zero]
  · rw [extractLsb'_shiftLeft_below x (by decide), extractLsb'_ushiftRight, BitVec.zero_or]

theorem rot_false_eq_rotateLeft (x : Word) {r : Nat} (h : r < 64) : rot false x r = x.rotateLeft r := by
  simp [rot, BitVec.rotateLeft_def, Nat.mod_eq_of_lt h]

theorem rot_false_rot_false_sub {r : Nat} (h0 : 0 < r) (h : r < 64) (x : Word) :
    rot false (rot false x r) (64 - r) = x := by
  rw [rot_false_eq_rotateLeft x h, rot_false_eq_rotateLeft _ (by omega), rotateLeft_rotateLeft_sub x h0 h]

/-- R65: without the quirk the rotates by `r` and by `64 - r` undo each other. -/
theorem rot_false_bijective {r : Nat} (h0 : 0 < r) (h : r < 64) (y : Word) :
    ∃ x, rot false x r = y ∧ ∀ x', rot false x' r = y → x' = x := by
  refine ⟨rot false y (64 - r), ?_, ?_⟩
  · have hback := rot_false_rot_false_sub (r := 64 - r) (by omega) (by omega) y
    rwa [show 64 - (64 - r) = r by omega] at hback
  · rintro x rfl
    exact (rot_false_rot_false_sub h0 h x).symm

/-! ### The round -/

/-- R66: the round with the rotates of R64's table and the constants as literals. -/
theorem bmix64_eq_bmixRound (rotQuirk : Bool) (h : HashState) :
    bmix64 rotQuirk h = Written.bmixRound rotQuirk h := by
  simp only [bmix64, Written.bmixRound, Written.roundA2, Written.roundA1, Written.roundK1, Written.roundK2,
    rot_23, rot_41, ha1, ha2, ca1, ca2]

/-- R68: with INITD = 1 MIX completes with one round, whether a command is in flight or not, since it uses no
operand. -/
theorem exec_mix_of_initd {s : State} (hi : s.initd = true) :
    exec .mix s = .next { s with
      hash := Written.bmixRound s.params.rotQuirk s.hash
      done := false
      inflight := none } := by
  rw [exec_of_admitted (State.commandError_eq_none.mpr ⟨fun _ => hi, Nat.zero_le _⟩), State.ran, effectOf_mix,
    bmix64_eq_bmixRound]
  rfl

end Sys2Proof.Machine
end

section
/-! PROOFS. The statements about the MIX unit (spec/42_mix.md). -/

namespace Sys2Proof.Machine

/-- Settles O17: MIX reads no byte of IBUF, and its effect is the round. -/
theorem mixRunsOneRound : Obligations.MixRunsOneRound :=
  ⟨fun _ _ _ hi => exec_mix_of_initd hi, by decide,
    errorsAtIssue_of_wellFormed (i := .mix) rfl (by decide) (by decide)⟩

/-- Settles O18: RDBLK leaves the block's two words in K1 and K2, and the round of MIX on them is BMIX's effect. -/
theorem bmixIsRdblkThenMix : Obligations.BmixIsRdblkThenMix := by
  intro off hoff
  have hwf : (Instr.bmix off).wellFormed = true := decide_eq_true hoff
  refine ⟨fun s f hf hi hr => ?_, (lineWord_eq_encode hwf).symm,
    errorsAtIssue_of_wellFormed hwf nofun fun _ => by simp [encodeFields]⟩
  refine ⟨_, _, exec_of_initd (i := .rdblk off) hf hi hr, exec_mix_of_initd hi, ?_, ?_⟩
  · rw [exec_of_initd (i := .bmix off) hf hi hr, effectOf_bmix, effectOf_rdblk, bmix64_eq_bmixRound]
    rfl
  · rw [effectOf_rdblk]

/-- Settles O19: LDK leaves the latched operands in K1 and K2, and the round of MIX on them is WMIX's effect. -/
theorem wmixIsLdkThenMix : Obligations.WmixIsLdkThenMix := by
  refine ⟨fun s f hf hi => ?_, by decide,
    errorsAtIssue_of_wellFormed (i := .wmix) rfl (by decide) (by decide)⟩
  refine ⟨_, _, exec_of_initd (i := .ldk) hf hi (Nat.zero_le _), exec_mix_of_initd hi, ?_, ?_⟩
  · rw [exec_of_initd (i := .wmix) hf hi (Nat.zero_le _), effectOf_wmix, effectOf_ldk, bmix64_eq_bmixRound]
    rfl
  · rw [effectOf_ldk]

/-- Settles O21: R64's table, R65's ranges, its collision, and the inverse of the form without the quirk. -/
theorem rotateFollowsItsTable : Obligations.RotateFollowsItsTable := by
  refine ⟨fun q x => ⟨rot_23 q x, rot_41 q x⟩, fun x => ?_, by decide, by decide,
    fun y => ⟨rot_false_bijective (by decide) (by decide) y, rot_false_bijective (by decide) (by decide) y⟩⟩
  obtain ⟨hmid, htop, hlow⟩ := rot_true_23_ranges x
  exact ⟨hmid, htop, hlow, rot_true_41_ranges x⟩

end Sys2Proof.Machine
end

section
/-! PROOFS. The avalanche mixer and the final steps of FIN (spec/43_finalize.md R71 to R73): the mixer's steps as
bijections, and the finalization with the mixer written out. -/

namespace Sys2Proof.Machine

/-! ### The steps of the mixer -/

/-- R72: a second shift-XOR by 33 undoes the first, since 33 + 33 is past the width. -/
theorem foldDown_involutive : Function.Involutive Written.foldDown := by
  intro k
  have hpast : k >>> 33 >>> 33 = 0#64 := by
    rw [← BitVec.shiftRight_add, BitVec.ushiftRight_eq_zero (by decide)]
  rw [Written.foldDown, Written.foldDown, BitVec.ushiftRight_xor_distrib, hpast, BitVec.xor_zero,
    BitVec.xor_assoc, BitVec.xor_self, BitVec.xor_zero]

/-- R72: a multiply by a constant that has an inverse modulo 2^64 is a bijection. -/
theorem mulRight_bijective_of_mul_eq_one {m n : Word} (h : m * n = 1) : Function.Bijective (· * m) :=
  IsUnit.isUnit_iff_mulRight_bijective.mp (IsUnit.of_mul_eq_one n h)

/-! ### The mixer -/

/-- R71: the mixer with its multipliers as literals. -/
theorem fmix64_eq_fmix (k : Word) : fmix64 k = Written.fmix k := by
  simp only [fmix64, Written.fmix, Written.foldDown, fm1, fm2]

/-- R72: the mixer is three shift-XORs with the multiplies by FM1 and FM2 between them, each a bijection. -/
theorem fmix_bijective : Function.Bijective Written.fmix := by
  have hfold := foldDown_involutive.bijective
  have hmul1 : Function.Bijective (· * fm1) :=
    mulRight_bijective_of_mul_eq_one (n := 0x4f74430c22a54005) (by decide)
  have hmul2 : Function.Bijective (· * fm2) :=
    mulRight_bijective_of_mul_eq_one (n := 0x9cb4b2f8129337db) (by decide)
  exact hfold.comp (hmul2.comp (hfold.comp (hmul1.comp hfold)))

/-! ### The finalization -/

/-- R73: the steps of FIN with the mixer of R71. `a` and `b` are the two accumulators before they are mixed. -/
theorem finalizeHash_eq_fmix (length : Word) (h : HashState) :
    finalizeHash length h =
      let b₀ := h.h2 ^^^ length
      let a := h.h1 + b₀
      let b := b₀ + a
      let out := Written.fmix a + Written.fmix b
      { h with h1 := out, h2 := Written.fmix b + out } := by
  simp only [finalizeHash, fmix64_eq_fmix]

end Sys2Proof.Machine
end

section
/-! PROOFS. The statements about the FINAL unit (spec/43_finalize.md). -/

namespace Sys2Proof.Machine

/-- Settles O20: FIN reads no byte of IBUF, and its effect is the finalization with the latched OPA. -/
theorem finFinalizesTheHash : Obligations.FinFinalizesTheHash := by
  refine ⟨fun s f hf hi => ⟨_, _, rfl, rfl, ?_⟩, by decide,
    errorsAtIssue_of_wellFormed (i := .fin) rfl (by decide) (by decide)⟩
  rw [exec_of_initd hf hi (Nat.zero_le _), effectOf_fin, finalizeHash_eq_fmix]
  rfl

/-- Settles O22: the model's mixer is R71's, which is a composition of bijections; R72's values by evaluation. -/
theorem fmixIsABijection : Obligations.FmixIsABijection := by
  refine ⟨fmix64_eq_fmix, fun y => ?_, by decide, by decide, by decide, by decide⟩
  simp only [fmix64_eq_fmix]
  exact fmix_bijective.existsUnique y

end Sys2Proof.Machine
end

section
/-! PROOFS. How a procedure ends (spec/46_host_procedures.md R76, R79, R80): the read of STATUS, the judgement,
and the reads of the digest registers. -/

namespace Sys2Proof.Machine

/-- The run after one word was read. -/
theorem afterReading_cons (h : HostRun) (w : Word) (ws : List Word) :
    afterReading (afterReading h [w]) ws = afterReading h (w :: ws) := by
  simp [afterReading]

/-- A read of a register of an idle block gets its word and changes nothing else. -/
theorem HostRun.load_reading {α : Type} {h : HostRun} (hidle : h.block.inflight = none) (r : Reg)
    (use : Word → HostRun → Ended α) :
    h.load r use = use (h.block.regValue r) (afterReading h [h.block.regValue r]) := by
  rw [HostRun.load_idle hidle]
  simp [afterReading]

section
variable {h : HostRun} (hidle : h.block.inflight = none)
include hidle

/-- R76, R80: the judgement is the read of STATUS, and FAIL unless ERR = 0 and DONE = 1. -/
theorem HostRun.judge_idle {α : Type} (readOn : HostRun → Ended α) :
    h.judge readOn =
      if h.block.err || !h.block.done then
        .next { host := afterReading h [h.block.statusWord], result := .fail }
      else readOn (afterReading h [h.block.statusWord]) := by
  have hstatus : h.block.regValue .status = h.block.statusWord := rfl
  rw [HostRun.judge, HostRun.load_reading hidle, hstatus, State.statusWord_err, State.statusWord_done]

theorem HostRun.returnPair_idle :
    h.returnPair = .next
      { host := afterReading h [h.block.hash.h1, h.block.hash.h2]
        result := .digest (h.block.hash.h1, h.block.hash.h2) } := by
  rw [HostRun.returnPair, HostRun.load_reading hidle,
    HostRun.load_reading (h := afterReading h [_]) hidle, afterReading_cons]
  rfl

/-- R79: OUT32 is the high half of H1. -/
theorem HostRun.returnHigh_idle :
    h.returnHigh = .next
      { host := afterReading h [out32Word h.block.hash]
        result := .digest (h.block.hash.h1.extractLsb' 32 32) } := by
  have hout : h.block.regValue .out32 = out32Word h.block.hash := rfl
  rw [HostRun.returnHigh, HostRun.load_reading hidle, hout, out32Word_low]

end

theorem runAndJudge_of_runLines {α : Type} {lines : List HostLine} {pace : List Bool} {s : State} {h : HostRun}
    (hrun : runLines lines pace s = .next h) (readOn : HostRun → Ended α) :
    runAndJudge lines readOn pace s = h.judge readOn := by
  rw [runAndJudge, hrun]

/-- Settles O58: the lines lead to an idle block, and the judgement and each read after it are said above. -/
theorem proceduresJudgeStatusFirst : Obligations.ProceduresJudgeStatusFirst := by
  intro lines pace s h hrun hidle
  simp only [runAndJudge_of_runLines hrun, HostRun.judge_idle hidle]
  refine ⟨fun hbad => ?_, fun herr hdone => ?_⟩
  · have hjudge : (h.block.err || !h.block.done) = true := by simpa using hbad
    simp [hjudge]
  · have hread : (afterReading h [h.block.statusWord]).block.inflight = none := hidle
    rw [HostRun.returnPair_idle hread, HostRun.returnHigh_idle hread, afterReading_cons, afterReading_cons,
      herr, hdone]
    exact ⟨rfl, rfl⟩

end Sys2Proof.Machine
end

section
/-! PROOFS. What the lines of a procedure do to the hash state and to the loaded bytes, line by line: each leads
from every state that is ready for it to one that is ready for the next (spec/46_host_procedures.md R76, R80). -/

namespace Sys2Proof.Machine

/-! ### A block in the middle of a procedure -/

/-- Between two lines of a procedure: nothing is in flight, no error is recorded, an INIT has completed, IBUF
begins with the bytes `loaded`, and the hash state is `h`. -/
structure State.Ready (s : State) (p : Params) (loaded : List Byte) (h : HashState) : Prop where
  idle : s.inflight = none
  params : s.params = p
  noError : s.err = false
  initd : s.initd = true
  bytes : ∀ i < loaded.length, s.ibufByte i = loaded.getD i 0
  hash : s.hash = h

/-- From every state that is ready with `l` and `h`, the lines lead to one that is ready with `l'` and `h'`. -/
def Takes (p : Params) (l : List Byte) (h : HashState) (lines : List HostLine) (l' : List Byte)
    (h' : HashState) : Prop :=
  ∀ s : State, s.Ready p l h → ∃ t, Runs lines s t ∧ t.Ready p l' h'

theorem Takes.nil (p : Params) (l : List Byte) (h : HashState) : Takes p l h [] l h :=
  fun s hs => ⟨s, Runs.nil s, hs⟩

section
variable {p : Params} {l l' l'' : List Byte} {h h' h'' : HashState}

theorem Takes.append {m n : List HostLine} (hm : Takes p l h m l' h') (hn : Takes p l' h' n l'' h'') :
    Takes p l h (m ++ n) l'' h'' := by
  intro s hs
  obtain ⟨t, hst, ht⟩ := hm s hs
  obtain ⟨u, htu, hu⟩ := hn t ht
  exact ⟨u, hst.append htu, hu⟩

/-- Bytes that no later line reads can be forgotten. -/
theorem Takes.forget {lines : List HostLine} (ht : Takes p l h lines l' h') : Takes p l h lines [] h' := by
  intro s hs
  obtain ⟨t, hst, ht⟩ := ht s hs
  exact ⟨t, hst, { ht with bytes := nofun }⟩

/-- One line for each item of a list does what the items do in turn. -/
theorem Takes.map {α : Type} {line : α → HostLine} {f : HashState → α → HashState} {xs : List α}
    (hline : ∀ x ∈ xs, ∀ h, Takes p l h [line x] l (f h x)) (h : HashState) :
    Takes p l h (xs.map line) l (xs.foldl f h) := by
  induction xs generalizing h with
  | nil => exact Takes.nil p l h
  | cons x xs ih =>
    rw [List.map_cons, List.foldl_cons]
    exact (hline x List.mem_cons_self h).append (ih (fun y hy => hline y (List.mem_cons_of_mem x hy)) _)

/-! ### The lines that run a command -/

/-- INITD stays 1. -/
theorem initdAfter_true (i : Instr) : initdAfter i true = true := by
  cases i <;> rfl

variable {s : State}

/-- A command line whose bytes are there runs the command. -/
theorem State.Ready.run (hs : s.Ready p l h) {i : Instr} (hwf : i.wellFormed = true)
    (hreach : ibufReach i ≤ p.ibufBytes) :
    Runs [.run i] s (s.ran i) ∧ (s.ran i).Ready p l (effectOf s i (s.latched i) h) := by
  have hcheck : s.commandError i = none :=
    State.commandError_eq_none.mpr ⟨fun _ => hs.initd, hs.params ▸ hreach⟩
  refine ⟨runs_run hs.idle (lineWord_eq_encode hwf) (decode_encode hwf) hcheck, ?_⟩
  exact
    { idle := s.ran_inflight i
      params := (s.ran_params i).trans hs.params
      noError := (s.ran_err i).trans hs.noError
      initd := by rw [State.ran_initd, hs.initd, initdAfter_true]
      bytes := fun j hj => (State.ibufByte_congr (s.ran_ibuf i) (s.ran_epoch i) j).trans (hs.bytes j hj)
      hash := by rw [State.ran_hash, hs.hash] }

theorem State.Ready.setOpa (hs : s.Ready p l h) (a : Word) : ({ s with opa := a } : State).Ready p l h :=
  ⟨hs.idle, hs.params, hs.noError, hs.initd, hs.bytes, hs.hash⟩

theorem State.Ready.setOpb (hs : s.Ready p l h) (b : Word) : ({ s with opb := b } : State).Ready p l h :=
  ⟨hs.idle, hs.params, hs.noError, hs.initd, hs.bytes, hs.hash⟩

/-- A command line after the lines that load OPA and OPB, for a command that reads no byte. -/
theorem State.Ready.runWithOperands (hs : s.Ready p l h) {i : Instr} (hwf : i.wellFormed = true)
    (hreach : ibufReach i = 0) (a b : Word) :
    ∃ t, Runs [.st .opa a, .st .opb b, .run i] s t ∧
      t.Ready p l (effectOf s i { lcmd := encode i, lopa := a, lopb := b } h) := by
  have ha := hs.setOpa a
  have hb := ha.setOpb b
  obtain ⟨hrun, ht⟩ := hb.run hwf (hreach ▸ Nat.zero_le _)
  have heffect := effectOf_congr (s := s) (t := { s with opa := a, opb := b }) rfl (fun _ => rfl) i
  rw [State.latched_idle hb.idle, heffect] at ht
  exact ⟨_, (runs_opa hs.idle a).cons ((runs_opb ha.idle b).cons hrun), ht⟩

/-- `WMIX a, b` runs the round of the pair (R80). -/
theorem takes_wmix (h : HashState) (x : Word × Word) :
    Takes p l h [.wmix x.1 x.2] l (mixPair p.rotQuirk h x) := by
  intro s hs
  obtain ⟨t, hrun, ht⟩ := hs.runWithOperands (i := .wmix) rfl rfl x.1 x.2
  rw [effectOf_wmix, hs.params] at ht
  exact ⟨t, hrun.congr rfl, ht⟩

/-- `CLRK` clears K1 and K2 (R54). -/
theorem takes_clrk (h : HashState) : Takes p l h [.clrk] l { h with k1 := 0, k2 := 0 } := by
  intro s hs
  obtain ⟨t, hrun, ht⟩ := hs.runWithOperands (i := .ldk) rfl rfl 0 0
  rw [effectOf_ldk] at ht
  exact ⟨t, hrun.congr rfl, ht⟩

/-- `FIN len` finalizes with the length and sets DONE (R73). -/
theorem State.Ready.runFin (hs : s.Ready p l h) (len : Word) :
    ∃ t, Runs [.fin len] s t ∧ t.Ready p l (finalizeHash len h) ∧ t.done = true := by
  have hu := hs.setOpa len
  obtain ⟨hrun, ht⟩ := hu.run (i := .fin) rfl (Nat.zero_le _)
  rw [State.latched_idle hu.idle, effectOf_fin] at ht
  exact ⟨_, ((runs_opa hs.idle len).cons hrun).congr rfl, ht, State.ran_done _ _⟩

end

end Sys2Proof.Machine
end

section
/-! PROOFS. The procedures of both front ends: their beginning and end, and the digest that they return for the
hash state that their rounds leave (spec/46_host_procedures.md R76, R79, R80, R81). -/

namespace Sys2Proof.Machine

/-- `wait`, `CLRERR` and `INIT` make a block in any state ready (R76, R80). -/
theorem runs_begin (s : State) (seed : BitVec 32) :
    ∃ t, Runs [.wait, .clrerr, .run (.init seed)] s t ∧ t.Ready s.params [] (initHash seed) := by
  obtain ⟨u, hu⟩ := s.complete_next
  have hidle := State.complete_inflight_eq_none hu
  have hinit := runs_run (s := { u with err := false, errcode := 0 }) hidle
    (lineWord_eq_encode (i := .init seed) rfl) (decode_encode rfl) (State.commandError_of_unconditional rfl rfl _)
  refine ⟨_, (runs_wait hu hidle).cons ((runs_clrerr hidle).cons hinit), ?_⟩
  exact
    { idle := State.ran_inflight _ _
      params := by rw [State.ran_params, ← State.complete_params hu]
      noError := State.ran_err _ _
      initd := State.ran_initd _ _
      bytes := nofun
      hash := by rw [State.ran_hash, effectOf_init] }

/-- The lines of R76 and R80: both front ends put these around the lines of their rounds. -/
def procedureLines (seed : BitVec 32) (rounds : List HostLine) (len : Word) : List HostLine :=
  [.wait, .clrerr, .run (.init seed)] ++ rounds ++ [.fin len]

/-- A procedure with these lines returns the digest at any pace, or the high half of its first element where it
reads OUT32. -/
def ReturnsDigest (lines : List HostLine) (s : State) (d : Word × Word) : Prop :=
  ∀ pace, ∃ host host' : HostRun,
    runAndJudge lines HostRun.returnPair pace s = .next { host := host, result := .digest d } ∧
    runAndJudge lines HostRun.returnHigh pace s =
      .next { host := host', result := .digest (d.1.extractLsb' 32 32) }

/-- Lines that lead to a block at rest, with no error and DONE = 1, give the procedure its digest. -/
theorem returnsDigest_of_runs {lines : List HostLine} {s t : State} (hrun : Runs lines s t)
    (hidle : t.inflight = none) (herr : t.err = false) (hdone : t.done = true) :
    ReturnsDigest lines s (t.hash.h1, t.hash.h2) := by
  intro pace
  obtain ⟨out, rest, hlines⟩ := hrun s.outbox pace
  obtain ⟨-, hgood⟩ := proceduresJudgeStatusFirst lines pace s _ hlines hidle
  exact ⟨_, _, hgood herr hdone⟩

/-- A procedure returns the digest of the hash state that its rounds leave. -/
theorem returnsDigest_of_takes {s : State} {seed : BitVec 32} {rounds : List HostLine} {h : HashState}
    (hrounds : Takes s.params [] (initHash seed) rounds [] h) (len : Word) :
    ReturnsDigest (procedureLines seed rounds len) s ((finalizeHash len h).h1, (finalizeHash len h).h2) := by
  obtain ⟨a, hbegin, ha⟩ := runs_begin s seed
  obtain ⟨b, hab, hb⟩ := hrounds a ha
  obtain ⟨t, hfin, ht, hdone⟩ := hb.runFin len
  rw [← ht.hash]
  exact returnsDigest_of_runs ((hbegin.append hab).append hfin) ht.idle ht.noError hdone

theorem mapDigest_digest {α β : Type} (f : α → β) (host : HostRun) (d : α) :
    mapDigest f (.next { host := host, result := .digest d }) =
      .next { host := host, result := .digest (f d) } := rfl

/-! ### The word procedures -/

/-- The rounds of R80. -/
theorem takes_wordLines (p : Params) (w : List Word) (h : HashState) :
    Takes p [] h (wordLines w) [] (mixWords p.rotQuirk w h) :=
  Takes.map (fun x _ h => takes_wmix h x) h

theorem returnsDigest_hashWordsLines (s : State) (w : List Word) (seed : BitVec 32) :
    ReturnsDigest (hashWordsLines w seed) s (digestWords s.params w seed) :=
  returnsDigest_of_takes (takes_wordLines s.params w (initHash seed)) (BitVec.ofNat 64 (8 * w.length))

/-- Settles O56: no words are an invalid argument by definition; the rounds of the pairs give the digest, and the
shorter widths are parts of it. -/
theorem wordProceduresGiveTheDigest : Obligations.WordProceduresGiveTheDigest := by
  intro s pace w seed
  cases w with
  | nil => exact ⟨fun _ => ⟨rfl, rfl, rfl⟩, fun hw => (hw rfl).elim⟩
  | cons a rest =>
    refine ⟨nofun, fun _ => ?_⟩
    obtain ⟨host, -, hpair, -⟩ := returnsDigest_hashWordsLines s (a :: rest) seed pace
    rw [← hash128w] at hpair
    exact ⟨host, hpair, by rw [hash64w, hpair, mapDigest_digest], by rw [hash32w, hpair, mapDigest_digest]⟩

end Sys2Proof.Machine
end

section
/-! PROOFS. The byte procedures (spec/46_host_procedures.md R76, R77): what the lines of one chunk do, and the
chunks in turn. -/

namespace Sys2Proof.Machine

/-! ### Loaded bytes and the commands that read them -/

section
variable {p : Params} {l : List Byte} {s : State}

/-- R58: an 8-byte window among the loaded bytes. -/
theorem State.Ready.getblock {h : HashState} (hs : s.Ready p l h) {o : Nat} (ho : o + 8 ≤ l.length) :
    s.getblock o = blockWord p.mask32Quirk ((l.drop o).take 8) := by
  have hbytes : ((List.range 8).map fun k => s.ibufByte (o + k)) = (l.drop o).take 8 := by
    refine List.ext_getElem (by simp; omega) fun k hk _ => ?_
    rw [List.length_map, List.length_range] at hk
    have hlt : o + k < l.length := by omega
    simp [hs.bytes (o + k) hlt, hlt]
  rw [State.getblock, hs.params, hbytes]

/-- The tail depends on its own bytes alone. -/
theorem xorTail_congr {f g : Nat → Byte} {n : Nat} (hfg : ∀ j < n, f j = g j) (h : HashState) :
    xorTail f n h = xorTail g n h := by
  induction n generalizing h with
  | zero => rfl
  | succ n ih => rw [xorTail, xorTail, hfg n (Nat.lt_succ_self n), ih fun j hj => hfg j (Nat.lt_succ_of_lt hj)]

/-- `MIX` runs one round. -/
theorem takes_mix (h : HashState) : Takes p l h [.run .mix] l (bmix64 p.rotQuirk h) := by
  intro s hs
  obtain ⟨hrun, ht⟩ := hs.run (i := .mix) rfl (Nat.zero_le _)
  rw [effectOf_mix, hs.params] at ht
  exact ⟨_, hrun, ht⟩

variable (hfit : l.length ≤ p.ibufBytes) (hsize : p.ibufBytes ≤ 4096)
include hfit hsize

/-- `BMIX` runs one round on 16 loaded bytes. -/
theorem takes_bmix {off : Nat} (hoff : off + 16 ≤ l.length) (h : HashState) :
    Takes p l h [.run (.bmix off)] l
      (bmix64 p.rotQuirk
        { h with
          k1 := blockWord p.mask32Quirk ((l.drop off).take 8)
          k2 := blockWord p.mask32Quirk ((l.drop (off + 8)).take 8) }) := by
  intro s hs
  obtain ⟨hrun, ht⟩ := hs.run (i := .bmix off) (decide_eq_true (by omega)) (Nat.le_trans hoff hfit)
  rw [effectOf_bmix, hs.params, hs.getblock (by omega), hs.getblock (by omega)] at ht
  exact ⟨_, hrun, ht⟩

/-- `TAIL` XORs loaded bytes into K1 and K2. -/
theorem takes_tail {off cnt : Nat} (hcnt : cnt < 16) (hoff : off + cnt ≤ l.length) (h : HashState) :
    Takes p l h [.run (.tail off cnt)] l (xorTail (fun j => l.getD (off + j) 0) cnt h) := by
  intro s hs
  obtain ⟨hrun, ht⟩ := hs.run (i := .tail off cnt) (wellFormed_tail (by omega) hcnt) (Nat.le_trans hoff hfit)
  rw [effectOf_tail, xorTail_congr fun j hj => hs.bytes (off + j) (by omega)] at ht
  exact ⟨_, hrun, ht⟩

end

section
variable {p : Params} (hsize : p.ibufBytes ≤ 4096)
include hsize

/-- `stb` loads one more byte. -/
theorem takes_stb {l : List Byte} (hl : l.length < p.ibufBytes) (b : Byte) (h : HashState) :
    Takes p l h [.stb l.length b] (l ++ [b]) h := by
  intro s hs
  refine ⟨_, runs_stb b hs.idle (hs.params ▸ hl) (hs.params ▸ hsize), ?_⟩
  exact
    { idle := hs.idle
      params := hs.params
      noError := hs.noError
      initd := hs.initd
      hash := hs.hash
      bytes := fun i hi => by
        rw [List.length_append, List.length_singleton] at hi
        rcases Nat.lt_succ_iff_lt_or_eq.mp hi with hlt | rfl
        · rw [State.ibufByte_setIbufByte_other _ _ hlt.ne, hs.bytes i hlt, List.getD_append _ _ _ _ hlt]
        · simp }

/-- The stores of a chunk load its bytes, one after another (R76). -/
theorem takes_stores {l bs : List Byte} (hfit : l.length + bs.length ≤ p.ibufBytes) (h : HashState) :
    Takes p l h ((bs.zipIdx l.length).map fun x => .stb x.2 x.1) (l ++ bs) h := by
  induction bs generalizing l with
  | nil => simpa using Takes.nil p l h
  | cons b bs ih =>
    rw [List.length_cons] at hfit
    have hrest := ih (l := l ++ [b]) (by simp; omega)
    rw [List.length_append, List.length_singleton, List.append_assoc, List.singleton_append] at hrest
    exact (takes_stb hsize (by omega) b h).append hrest

end

/-! ### One chunk -/

/-- The bytes of the input that the chunk `c` loads (R76). -/
def chunkBytes (p : Params) (b : List Byte) (c : Nat) : List Byte := (b.drop (c * p.ibufBytes)).take p.ibufBytes

theorem length_chunkBytes (p : Params) (b : List Byte) (c : Nat) :
    (chunkBytes p b c).length = min p.ibufBytes (b.length - c * p.ibufBytes) := by
  simp [chunkBytes]

/-- A window of a chunk is a window of the input. -/
theorem take_drop_chunkBytes {p : Params} {o n : Nat} (h : o + n ≤ p.ibufBytes) (b : List Byte) (c : Nat) :
    ((chunkBytes p b c).drop o).take n = (b.drop (c * p.ibufBytes + o)).take n := by
  rw [chunkBytes, List.drop_take, List.take_take, List.drop_drop, Nat.min_eq_left (by omega)]

theorem getD_chunkBytes {p : Params} {i : Nat} (h : i < p.ibufBytes) (b : List Byte) (c : Nat) :
    (chunkBytes p b c).getD i 0 = b.getD (c * p.ibufBytes + i) 0 := by
  simp [chunkBytes, List.getD_eq_getElem?_getD, h]

/-- The rounds on the full blocks of the first `c` chunks. -/
def mixFullBefore (p : Params) (b : List Byte) (h : HashState) (c : Nat) : HashState :=
  ((List.range (b.length / 16)).filter fun j => 16 * j / p.ibufBytes < c).foldl (mixBlock p b) h

/-- The round on the last bytes, fewer than 16 (R76). -/
def mixTail (p : Params) (b : List Byte) (h : HashState) : HashState :=
  bmix64 p.rotQuirk
    (xorTail (fun j => b.getD (16 * (b.length / 16) + j) 0) (b.length % 16) { h with k1 := 0, k2 := 0 })

/-- The rounds of the first `c` chunks. -/
def mixBefore (p : Params) (b : List Byte) (h : HashState) (c : Nat) : HashState :=
  if 0 < b.length % 16 ∧ 16 * (b.length / 16) / p.ibufBytes < c then mixTail p b (mixFullBefore p b h c)
  else mixFullBefore p b h c

theorem mixBytes_eq (p : Params) (b : List Byte) (h : HashState) :
    mixBytes p b h =
      if b.length % 16 = 0 then (List.range (b.length / 16)).foldl (mixBlock p b) h
      else mixTail p b ((List.range (b.length / 16)).foldl (mixBlock p b) h) := rfl

/-- The items of a sorted list below `c`, and then those at `c`, are those below `c + 1`. -/
theorem filter_lt_append_filter_eq {α : Type} {f : α → Nat} {l : List α} (hl : l.Pairwise (f · ≤ f ·))
    (c : Nat) : l.filter (f · < c) ++ l.filter (f · == c) = l.filter (f · < c + 1) := by
  induction l with
  | nil => rfl
  | cons x l ih =>
    obtain ⟨hx, hl⟩ := List.pairwise_cons.mp hl
    have ih := ih hl
    by_cases hlt : f x < c
    · simp [hlt, hlt.ne, hlt.le, ih]
    · have hnone : l.filter (f · < c) = [] := by
        simp only [List.filter_eq_nil_iff, decide_eq_true_eq]
        intro y hy
        have hle := hx y hy
        omega
      rw [hnone, List.nil_append] at ih
      simp [List.filter_cons, hlt, hnone, ih, show f x = c ↔ f x ≤ c by omega]

section
variable {p : Params} (b : List Byte)

/-- One chunk more adds its own full blocks. -/
theorem mixFullBefore_succ (h : HashState) (c : Nat) :
    mixFullBefore p b h (c + 1) =
      ((List.range (b.length / 16)).filter fun j => 16 * j / p.ibufBytes == c).foldl (mixBlock p b)
        (mixFullBefore p b h c) := by
  have hsorted : (List.range (b.length / 16)).Pairwise fun i j => 16 * i / p.ibufBytes ≤ 16 * j / p.ibufBytes :=
    List.pairwise_le_range.imp fun hij => Nat.div_le_div_right (Nat.mul_le_mul_left 16 hij)
  rw [mixFullBefore, mixFullBefore, ← List.foldl_append, filter_lt_append_filter_eq hsorted]

variable (hwf : p.wf)
include hwf

/-- A block of 16 bytes lies in one chunk, since IBUF_BYTES is a multiple of 16 (R6, R77). -/
theorem block_in_chunk {j c : Nat} (hj : 16 * j / p.ibufBytes = c) :
    c * p.ibufBytes ≤ 16 * j ∧ 16 * j + 16 ≤ c * p.ibufBytes + p.ibufBytes := by
  obtain ⟨h16, hpos, -, -⟩ := hwf
  have hlo : c * p.ibufBytes ≤ 16 * j := hj ▸ Nat.div_mul_le_self _ _
  have hhi : 16 * j < c * p.ibufBytes + p.ibufBytes := hj ▸ Nat.lt_div_mul_add (by omega)
  have hbase : c * p.ibufBytes % 16 = 0 := by simp [Nat.mul_mod, h16]
  omega

/-- The commands on a chunk's full blocks run their rounds. -/
theorem takes_chunkBlocks (c : Nat) (h : HashState) :
    Takes p (chunkBytes p b c) h
      (((List.range (b.length / 16)).filter fun j => 16 * j / p.ibufBytes == c).map fun j =>
        .run (.bmix (16 * j - c * p.ibufBytes)))
      (chunkBytes p b c)
      (((List.range (b.length / 16)).filter fun j => 16 * j / p.ibufBytes == c).foldl (mixBlock p b) h) := by
  refine Takes.map (fun j hj h => ?_) h
  simp only [List.mem_filter, List.mem_range, beq_iff_eq] at hj
  obtain ⟨hlt, hc⟩ := hj
  obtain ⟨hlo, hhi⟩ := block_in_chunk hwf hc
  obtain ⟨-, -, hsize, -⟩ := hwf
  have hlen := length_chunkBytes p b c
  have hmix := takes_bmix (l := chunkBytes p b c) (off := 16 * j - c * p.ibufBytes) (by omega) hsize (by omega) h
  rw [take_drop_chunkBytes (by omega), take_drop_chunkBytes (by omega), ← Nat.add_assoc,
    Nat.add_sub_cancel' hlo] at hmix
  exact hmix

/-- The tail's commands, in the chunk where it lies. -/
theorem takes_chunkTail {c : Nat} (hc : 16 * (b.length / 16) / p.ibufBytes = c) (h : HashState) :
    Takes p (chunkBytes p b c) h
      [.clrk, .run (.tail (16 * (b.length / 16) - c * p.ibufBytes) (b.length % 16)), .run .mix]
      (chunkBytes p b c) (mixTail p b h) := by
  obtain ⟨hlo, hhi⟩ := block_in_chunk hwf hc
  obtain ⟨-, -, hsize, -⟩ := hwf
  have hlen := length_chunkBytes p b c
  have hbytes : ∀ j < b.length % 16,
      (chunkBytes p b c).getD (16 * (b.length / 16) - c * p.ibufBytes + j) 0 =
        b.getD (16 * (b.length / 16) + j) 0 := by
    intro j hj
    rw [getD_chunkBytes (by omega), ← Nat.add_assoc, Nat.add_sub_cancel' hlo]
  have htail := takes_tail (l := chunkBytes p b c) (off := 16 * (b.length / 16) - c * p.ibufBytes)
    (cnt := b.length % 16) (by omega) hsize (by omega) (by omega) { h with k1 := 0, k2 := 0 }
  rw [xorTail_congr hbytes] at htail
  exact ((takes_clrk h).append htail).append (takes_mix _)

/-- The lines of one chunk run its full blocks, and the tail where it lies in the chunk. -/
theorem takes_chunkLines {c : Nat} (hc : c * p.ibufBytes < b.length) (h : HashState) :
    Takes p [] (mixBefore p b h c) (chunkLines p.ibufBytes b c) [] (mixBefore p b h (c + 1)) := by
  have ⟨_, _, hsize, _⟩ := hwf
  have hfit : ([] : List Byte).length + (chunkBytes p b c).length ≤ p.ibufBytes := by
    simp [length_chunkBytes]
  have hstores := takes_stores hsize hfit (mixFullBefore p b h c)
  have hblocks := takes_chunkBlocks b hwf c (mixFullBefore p b h c)
  rw [← mixFullBefore_succ] at hblocks
  have hfull := hstores.append hblocks
  have hnotBefore : 0 < b.length % 16 → c ≤ 16 * (b.length / 16) / p.ibufBytes := by
    intro hr
    by_contra hlt
    have hend := (block_in_chunk hwf (j := b.length / 16) rfl).2
    have hle := Nat.mul_le_mul_right p.ibufBytes (Nat.lt_of_not_le hlt)
    rw [Nat.succ_mul] at hle
    omega
  rw [mixBefore, if_neg (by omega), chunkLines, mixBefore]
  split
  case isTrue hhere =>
    rw [if_pos (by omega)]
    exact (hfull.append (takes_chunkTail b hwf hhere.2 _)).forget
  case isFalse hnothere =>
    rw [if_neg (by omega)]
    exact (hfull.append (Takes.nil _ _ _)).forget

/-! ### The chunks in turn -/

/-- The lines of the first chunks run their rounds (R77). -/
theorem takes_chunks {c : Nat} (hc : c ≤ (b.length + p.ibufBytes - 1) / p.ibufBytes) (h : HashState) :
    Takes p [] h ((List.range c).flatMap (chunkLines p.ibufBytes b)) [] (mixBefore p b h c) := by
  have ⟨_, hmin, _, _⟩ := hwf
  induction c with
  | zero => simpa [mixBefore, mixFullBefore] using Takes.nil p [] h
  | succ c ih =>
    have hnext := (Nat.le_div_iff_mul_le (by omega)).mp hc
    rw [Nat.succ_mul] at hnext
    rw [List.range_succ, List.flatMap_append, List.flatMap_singleton]
    exact (ih (by omega)).append (takes_chunkLines b hwf (by omega) h)

/-- After the last chunk all rounds have run. -/
theorem mixBefore_all (h : HashState) :
    mixBefore p b h ((b.length + p.ibufBytes - 1) / p.ibufBytes) = mixBytes p b h := by
  obtain ⟨-, hmin, -, -⟩ := hwf
  have hbelow : ∀ i < b.length, i / p.ibufBytes < (b.length + p.ibufBytes - 1) / p.ibufBytes := by
    intro i hi
    rw [← Nat.succ_le_iff, Nat.le_div_iff_mul_le (by omega), Nat.succ_mul]
    have hle := Nat.div_mul_le_self i p.ibufBytes
    omega
  have hfull : mixFullBefore p b h ((b.length + p.ibufBytes - 1) / p.ibufBytes) =
      (List.range (b.length / 16)).foldl (mixBlock p b) h := by
    rw [mixFullBefore, List.filter_eq_self.mpr]
    intro j hj
    have hlt := List.mem_range.mp hj
    exact decide_eq_true (hbelow _ (by omega))
  rw [mixBefore, hfull, mixBytes_eq]
  split
  case isTrue hr => rw [if_neg (by omega)]
  case isFalse hr =>
    rw [if_pos]
    by_contra hne
    exact hr ⟨by omega, hbelow _ (by omega)⟩

end

/-! ### The byte procedures -/

theorem returnsDigest_hashBytesLines {s : State} (hwf : s.params.wf) (b : List Byte) (seed : BitVec 32) :
    ReturnsDigest (hashBytesLines s.params.ibufBytes b seed) s (digestBytes s.params b seed) := by
  have hrounds := takes_chunks b hwf (Nat.le_refl _) (initHash seed)
  rw [mixBefore_all b hwf] at hrounds
  exact returnsDigest_of_takes hrounds (BitVec.ofNat 64 b.length)

/-- Settles O57: the chunks' rounds give the digest; the 64-bit form is its first element, and the 32-bit form reads
OUT32. -/
theorem byteProceduresGiveTheDigest : Obligations.ByteProceduresGiveTheDigest := by
  intro s pace b seed hwf
  obtain ⟨host, host', hpair, hhigh⟩ := returnsDigest_hashBytesLines hwf b seed pace
  rw [← hashBytes, ← hash128b] at hpair
  exact ⟨host, host', hpair, by rw [hash64b, hpair, mapDigest_digest], hhigh⟩

end Sys2Proof.Machine
end

section
/-! PROOFS. Rejections, the checks while INITD = 0, and what a Complete step can leave
(spec/60_exceptions.md R85 to R90). -/

namespace Sys2Proof.Machine

/-! ### Rejection -/

/-- The model's rejection is R90's, with the code that R86 gives the error. -/
theorem State.reject_eq_rejected (s : State) (e : CmdError) : s.reject e = Written.rejected s e.code := rfl

theorem State.reject_of_no_error {s : State} (h : s.err = false) (e : CmdError) :
    s.reject e = { s with err := true, errcode := e.code } := by
  rw [State.reject, h, if_neg Bool.false_ne_true]

theorem State.reject_of_error {s : State} (h : s.err = true) (e : CmdError) : s.reject e = s := by
  rw [State.reject, if_pos h]

theorem State.issue_of_error {s : State} {v : Word} {e : CmdError} (h : s.issueError v = some e) :
    s.issue v = s.reject e := by
  rw [State.issue, h]

/-- R87: while BUSY = 1 the first check fails, whatever the word. -/
theorem State.issueError_of_inflight {s : State} {f : InFlight} (h : s.inflight = some f) (v : Word) :
    s.issueError v = some .busy := by
  simp [State.issueError, State.busy, h]

/-! ### Before the first INIT -/

/-- The commands that run before an INIT read no byte of IBUF. -/
theorem ibufReach_of_not_needsInit {i : Instr} (h : needsInit i = false) : ibufReach i = 0 := by
  obtain rfl | ⟨seed, rfl⟩ := needsInit_eq_false.mp h <;> rfl

/-- R88: with INITD = 0 the first of a command's own checks decides. -/
theorem State.commandError_of_not_initd {s : State} (h : s.initd = false) (i : Instr) :
    s.commandError i = if needsInit i then some .noInit else none := by
  cases hn : needsInit i with
  | true => simp [State.commandError, h, hn]
  | false => exact State.commandError_of_unconditional hn (ibufReach_of_not_needsInit hn) s

/-- R88: on an idle block with INITD = 0 a command's word is rejected exactly when the command needs INITD. -/
theorem State.issueError_encode_of_not_initd {s : State} (hidle : s.inflight = none) (h : s.initd = false)
    {i : Instr} (hwf : i.wellFormed = true) :
    s.issueError (encode i) = if needsInit i then some .noInit else none := by
  rw [State.issueError_encode hwf, if_neg (by simp [hidle]), State.commandError_of_not_initd h]

/-! ### Completion -/

/-- Everything a Complete step can leave: the state as it is, a rejection, or what a command leaves. -/
theorem State.complete_outcomes {s t : State} (h : s.complete = .next t) :
    t = s ∨ (∃ e, t = (s.reject e).retire) ∨ ∃ i, t = s.ran i := by
  cases hf : s.fetched with
  | none =>
    rw [State.complete, hf] at h
    cases h
    exact .inl rfl
  | some d =>
    rw [State.complete, hf] at h
    cases d with
    | ok i =>
      rcases exec_cases h with ⟨-, rfl⟩ | ⟨e, -, rfl⟩
      · exact .inr (.inr ⟨i, rfl⟩)
      · exact .inr (.inl ⟨e, rfl⟩)
    | error e =>
      cases h
      exact .inr (.inl ⟨_, rfl⟩)

theorem State.complete_keeps_initd {s t : State} (h : s.complete = .next t) (hi : s.initd = true) :
    t.initd = true := by
  rcases State.complete_outcomes h with rfl | ⟨e, rfl⟩ | ⟨i, rfl⟩
  · exact hi
  · simpa using hi
  · rw [State.ran_initd, hi, initdAfter_true]

/-- R88: of the events of R43 only a reset clears INITD. -/
theorem step_keeps_initd {s t : State} (h : step s = .next t) (hr : ¬ Written.resetsNext s)
    (hi : s.initd = true) : t.initd = true := by
  rcases step_cases h with ⟨-, es, hc⟩ | ⟨a, es, rfl⟩ | ⟨hn, -⟩
  · exact State.complete_keeps_initd hc hi
  · obtain ⟨-, -, hinitd, -⟩ := ({ s with inbox := es } : State).perform_sameHash a
    rw [State.doAccess_state, State.respond_initd, hinitd]
    exact hi
  · exact absurd hn hr

end Sys2Proof.Machine
end

section
/-! PROOFS. Which accesses get a bus error (spec/60_exceptions.md R92). -/

namespace Sys2Proof.Machine

/-- R92: an access does not fit its region when its width or its alignment is not the region's. -/
theorem wellSized_eq_false_iff {offset : BitVec 13} {width : Nat} :
    wellSized offset width = false ↔
      (offset.toNat < 0x1000 ∧ (width ≠ 8 ∨ offset.toNat % 8 ≠ 0)) ∨
      (0x1000 ≤ offset.toNat ∧ (width ∉ [1, 2, 4, 8] ∨ offset.toNat % width ≠ 0)) := by
  rw [← Bool.not_eq_true]
  rcases Nat.lt_or_ge offset.toNat 0x1000 with hreg | hbuf
  · simp [wellSized_register hreg, hreg, Nat.not_le_of_lt hreg, imp_iff_not_or]
  · simp [wellSized_buffer hbuf, hbuf, Nat.not_lt_of_le hbuf, imp_iff_not_or]

section
variable (s : State) {offset : BitVec 13} {width : Nat}

theorem State.perform_read_misfit (h : wellSized offset width = false) :
    s.perform (.read offset width) = (s, .busError) := by
  simp [State.perform, State.busRead, h]

theorem State.perform_write_misfit (h : wellSized offset width = false) (v : Word) :
    s.perform (.write offset width v) = (s, .busError) := by
  simp [State.perform, State.busWrite, h]

/-- A read that fits its region gets data. -/
theorem State.perform_read_response (h : wellSized offset width = true) :
    ∃ d, (s.perform (.read offset width)).2 = .data d := by
  simp only [State.perform, State.busRead, h, Bool.not_true, if_neg Bool.false_ne_true]
  split
  · split <;> exact ⟨_, rfl⟩
  · split <;> exact ⟨_, rfl⟩

/-- A write that fits the register region gets `Ok`, whatever register is there. -/
theorem State.perform_write_register_response (hreg : offset.toNat < 0x1000)
    (h : wellSized offset width = true) (v : Word) :
    (s.perform (.write offset width v)).2 = .written := by
  simp only [State.perform, State.busWrite, h, inRegisterRegion_eq_true.mpr hreg, Bool.not_true,
    if_neg Bool.false_ne_true, if_true]
  split <;> rfl

theorem State.perform_read_busError_iff :
    (s.perform (.read offset width)).2 = .busError ↔ wellSized offset width = false := by
  cases hsize : wellSized offset width with
  | false => simp [s.perform_read_misfit hsize]
  | true =>
    obtain ⟨d, hd⟩ := s.perform_read_response hsize
    simp [hd]

/-- R92, R107: a write gets a bus error when it does not fit its region, or when it lies in IBUF and BUSY = 1. -/
theorem State.perform_write_busError_iff (v : Word) :
    (s.perform (.write offset width v)).2 = .busError ↔ wellSized offset width = false ∨
      (s.busy = true ∧ 0x1000 ≤ offset.toNat ∧ ibufIndex offset + width ≤ s.params.ibufBytes) := by
  cases hsize : wellSized offset width with
  | false => simp [s.perform_write_misfit hsize]
  | true =>
    rcases Nat.lt_or_ge offset.toNat 0x1000 with hreg | hbuf
    · simp [s.perform_write_register_response hreg hsize, Nat.not_le_of_lt hreg]
    · rcases Nat.lt_or_ge s.params.ibufBytes (ibufIndex offset + width) with hout | hin
      · simp [State.perform_write_beyond hbuf hsize hout, Nat.not_le_of_lt hout]
      · rw [State.perform_write_inside hbuf hsize hin]
        cases hb : s.busy <;> simp [hbuf, hin]

/-- R92: a bus error to a write has no effect. -/
theorem State.perform_write_of_busError {v : Word}
    (h : (s.perform (.write offset width v)).2 = .busError) :
    (s.perform (.write offset width v)).1 = s := by
  cases hsize : wellSized offset width with
  | false => rw [s.perform_write_misfit hsize]
  | true =>
    obtain ⟨hb, hbuf, hin⟩ := ((s.perform_write_busError_iff v).mp h).resolve_left (by simp [hsize])
    rw [State.perform_write_inside hbuf hsize hin, if_pos hb]

end

/-- R6, R37: IBUF_BYTES is a multiple of every width, so an aligned access starts in IBUF exactly when it ends
there. -/
theorem ibufIndex_add_le_iff {p : Params} (hwf : p.wf) {offset : BitVec 13} {width : Nat}
    (hbuf : 0x1000 ≤ offset.toNat) (hsize : wellSized offset width = true) :
    ibufIndex offset + width ≤ p.ibufBytes ↔ offset.toNat < 0x1000 + p.ibufBytes := by
  obtain ⟨hmul, -, -, -⟩ := hwf
  obtain ⟨hwidth, halign⟩ := (wellSized_buffer hbuf).mp hsize
  simp only [List.mem_cons, List.not_mem_nil, or_false] at hwidth
  unfold ibufIndex
  generalize offset.toNat = o at hbuf halign ⊢
  rcases hwidth with rfl | rfl | rfl | rfl <;> omega

end Sys2Proof.Machine
end

section
/-! PROOFS. The statements about errors (spec/60_exceptions.md). -/

namespace Sys2Proof.Machine

/-- Settles O10: an access and a reset answer a state by definition, and the Complete step always does. -/
theorem everyStepAnswersNext : Obligations.EveryStepAnswersNext := by
  intro s
  cases hin : s.inbox with
  | nil => exact step_of_nil hin ▸ s.complete_next
  | cons e rest =>
    cases e with
    | access a => exact ⟨_, step_of_access hin⟩
    | complete => exact step_of_complete hin ▸ State.complete_next _
    | reset u => exact ⟨_, step_of_reset hin⟩

/-- Settles O28: issue rejects the word, and the checks read neither ERR nor ERRCODE. -/
theorem firstErrorIsKept : Obligations.FirstErrorIsKept := by
  refine ⟨fun s v e he => ⟨fun h => ?_, fun h => ?_⟩, fun s v b c => rfl⟩
  · rw [State.issue_of_error he, State.reject_of_no_error h]
    rfl
  · rw [State.issue_of_error he, State.reject_of_error h]

/-- Settles O29: the write is the E_BUSY rejection, which leaves all that the command in flight reads. -/
theorem busyBlockDropsTheWord : Obligations.BusyBlockDropsTheWord := by
  intro s f v hf
  have hw : s.perform (.write 0x018 8 v) = (s.reject .busy, .written) := by
    rw [← State.issue_of_error (State.issueError_of_inflight hf v)]
    exact s.perform_write_reg .cmd v
  have hsame := State.perform_sameCommand hf (.write 0x018 8 v)
  rw [hw] at hsame ⊢
  refine ⟨rfl, s.reject_eq_rejected .busy, (s.reject_inflight .busy).trans hf, fun i _ => ?_⟩
  obtain ⟨t, u, ht, hu, ⟨hhash, hdone, hinitd, -⟩, -, hbytes⟩ := exec_of_sameCommand hsame hf i
  exact ⟨t, u, ht, hu, hhash, hdone, hinitd, exec_inflight hu, hbytes⟩

/-- Settles O30: with INITD = 0 the first of a command's own checks decides, and `needsInit` leaves out NOP and
INIT alone. -/
theorem nothingBeforeInit : Obligations.NothingBeforeInit := by
  refine ⟨fun s i hidle hi hwf => ⟨fun h => ?_, fun hnop hinit => ?_⟩, fun s t => step_keeps_initd⟩
  · rw [State.issueError_encode_of_not_initd hidle hi hwf, needsInit_eq_false.mpr h,
      if_neg Bool.false_ne_true]
  · have hn : needsInit i = true := by
      rw [← Bool.not_eq_false, needsInit_eq_false, not_or, not_exists]
      exact ⟨hnop, hinit⟩
    have he : s.issueError (encode i) = some .noInit := by
      rw [State.issueError_encode_of_not_initd hidle hi hwf, if_pos hn]
    exact ⟨he, (State.issue_of_error he).trans (s.reject_eq_rejected .noInit)⟩

/-- Settles O33: under the invariant the record in flight spells a command whose checks pass, so it runs. -/
theorem acceptedCommandCompletesWithoutError : Obligations.AcceptedCommandCompletesWithoutError := by
  rintro s f ⟨-, -, -, hacc, -⟩ hf
  obtain ⟨i, hd, hc⟩ := State.inflightAccepted_iff.mp hacc f hf
  exact ⟨s.ran i, (State.complete_inflight hf hd).trans (exec_of_admitted hc), s.ran_inflight i, s.ran_err i,
    s.ran_errcode i⟩

/-- Settles O44: a misfit is an access that is not `wellSized`; one that is lies in IBUF as soon as its offset
does. -/
theorem busErrorsAreExactlyThese : Obligations.BusErrorsAreExactlyThese := by
  intro s hwf offset width v
  simp only [← wellSized_eq_false_iff]
  refine ⟨s.perform_read_busError_iff, ?_, fun h => by rw [s.perform_read_misfit h],
    s.perform_write_of_busError⟩
  rw [s.perform_write_busError_iff]
  cases hsize : wellSized offset width with
  | false => simp
  | true =>
    rw [State.busy_eq_true, ← Option.ne_none_iff_exists']
    refine or_congr_right (and_congr_right fun _ => and_congr_right fun hbuf => ?_)
    exact ibufIndex_add_le_iff hwf hbuf hsize

end Sys2Proof.Machine
end

section
/-! PROOFS. Reads while BUSY = 1 (spec/70_reset_and_hazards.md R106, R107): which draw a free value, and which
read what they read once nothing is in flight. -/

namespace Sys2Proof.Machine

section
variable (s : State)

/-- R106: while BUSY = 1 a read of a hash register or OUT32 draws a free value. -/
theorem State.perform_read_of_hidden {f : InFlight} (hf : s.inflight = some f) {r : Reg}
    (h : hiddenWhileBusy r = true) :
    s.perform (.read (regOffset r) 8) =
      ({ s with draws := s.draws + 1 }, .data (Config.readWhileBusy s.draws)) := by
  have hb : s.busy = true := s.busy_eq_true.mpr ⟨f, hf⟩
  rw [State.perform, State.busRead_reg, State.readReg, hb, h]
  rfl

/-- R35: a register is read with 8 bytes alone. -/
theorem State.perform_read_reg_of_width_ne (r : Reg) {width : Nat} (h : width ≠ 8) :
    s.perform (.read (regOffset r) width) = (s, .busError) :=
  s.perform_read_misfit (wellSized_eq_false_iff.mpr (.inl ⟨(regOffset_lt r).trans (by decide), .inl h⟩))

/-- Of the registers only STATUS shows whether a command is in flight. -/
theorem State.regValue_retire {r : Reg} (h : r ≠ .status) : s.retire.regValue r = s.regValue r := by
  cases r with
  | status => exact absurd rfl h
  | id | cfg | cmd | opa | opb | h1 | h2 | k1 | k2 | c1 | c2 | out32 => rfl

/-- R106: at any width, a register that is neither open nor STATUS reads as it does with nothing in flight. -/
theorem State.perform_read_reg_eq_retire {r : Reg} (h : hiddenWhileBusy r = false) (hst : r ≠ .status)
    (width : Nat) :
    s.perform (.read (regOffset r) width) = (s, (s.retire.perform (.read (regOffset r) width)).2) := by
  by_cases hw : width = 8
  · subst hw
    rw [s.perform_read_of_exact h, s.retire.perform_read_of_exact h, s.regValue_retire hst]
  · rw [s.perform_read_reg_of_width_ne r hw, s.retire.perform_read_reg_of_width_ne r hw]

/-- A read of IBUF depends on the bytes alone. -/
theorem State.readLanes_congr {s t : State} (h : ∀ j, t.ibufByte j = s.ibufByte j) (i width : Nat) :
    t.readLanes i width = s.readLanes i width := by
  induction width generalizing i with
  | zero => rfl
  | succ width ih => rw [State.readLanes, State.readLanes, h, ih]

/-- R106, R107: a read of the buffer region gets what it gets with nothing in flight. -/
theorem State.perform_read_buffer_eq_retire {offset : BitVec 13} (hbuf : 0x1000 ≤ offset.toNat)
    (width : Nat) :
    s.perform (.read offset width) = (s, (s.retire.perform (.read offset width)).2) := by
  cases hsize : wellSized offset width with
  | false => rw [s.perform_read_misfit hsize, s.retire.perform_read_misfit hsize]
  | true =>
    rcases Nat.lt_or_ge s.params.ibufBytes (ibufIndex offset + width) with hout | hin
    · rw [State.perform_read_beyond hbuf hsize hout,
        State.perform_read_beyond (s := s.retire) hbuf hsize hout]
    · have hbytes : ∀ j, s.retire.ibufByte j = s.ibufByte j := State.ibufByte_congr rfl rfl
      rw [State.perform_read_inside hbuf hsize hin, State.perform_read_inside (s := s.retire) hbuf hsize hin,
        State.readLanes_congr hbytes]

end

end Sys2Proof.Machine
end

section
/-! PROOFS. What is still to come after a step. -/

namespace Sys2Proof.Machine

/-- Complete is the block's own step and leaves the coming events. -/
theorem State.complete_keeps_inbox {s t : State} (h : s.complete = .next t) : t.inbox = s.inbox := by
  rcases State.complete_outcomes h with rfl | ⟨e, rfl⟩ | ⟨i, rfl⟩
  · rfl
  · rw [State.retire_inbox, State.reject_inbox]
  · exact s.ran_inbox i

theorem State.resetDuring_keeps_inbox (s : State) (u : Option Access) :
    (s.resetDuring u).inbox = s.inbox := by
  obtain ⟨w, -, hi, hw | ⟨r, hw⟩⟩ := s.resetDuring_cases u <;> simp [hw, hi]

/-- R43: a step takes the first coming event, if there is one, and adds none. -/
theorem step_inbox {s t : State} (h : step s = .next t) : t.inbox = s.inbox.tail := by
  cases hin : s.inbox with
  | nil =>
    rw [step_of_nil hin] at h
    exact (State.complete_keeps_inbox h).trans hin
  | cons e rest =>
    cases e with
    | access a =>
      rw [step_of_access hin] at h
      cases h
      simp
    | complete =>
      rw [step_of_complete hin] at h
      exact State.complete_keeps_inbox h
    | reset u =>
      rw [step_of_reset hin] at h
      cases h
      exact State.resetDuring_keeps_inbox _ u

theorem steps_succ {n : Nat} {s t : State} (h : step s = .next t) : steps (n + 1) s = steps n t := by
  rw [steps, h]

/-- R109: with nothing to come, the next step is the Complete step, and it leaves the block idle. -/
theorem idle_of_step_of_nil {s t : State} (hin : s.inbox = []) (h : step s = .next t) : t.idle := by
  refine ⟨State.complete_inflight_eq_none (step_of_nil hin ▸ h), ?_⟩
  rw [step_inbox h, hin, List.tail_nil]

end Sys2Proof.Machine
end

section
/-! PROOFS. The statements about hazards and timing (spec/70_reset_and_hazards.md). -/

namespace Sys2Proof.Machine

/-- Settles O42: R106 leaves the seven registers open, and no other read but that of STATUS depends on what is
in flight. -/
theorem busyReadsAreOpenOrExact : Obligations.BusyReadsAreOpenOrExact := by
  intro s f hf
  refine ⟨fun offset ho => ?_, ⟨s.statusWord, s.perform_read_of_exact (r := .status) rfl, ?_,
    s.statusWord_done, s.statusWord_initd⟩, s.perform_read_of_exact (r := .cmd) rfl, fun offset width ho => ?_⟩
  · have hregs : offset ∈ [Reg.h1, .h2, .k1, .k2, .c1, .c2, .out32].map regOffset := ho
    obtain ⟨r, hr, rfl⟩ := List.mem_map.mp hregs
    have hidden : ∀ r ∈ [Reg.h1, .h2, .k1, .k2, .c1, .c2, .out32], hiddenWhileBusy r = true := by decide
    exact ⟨_, s.perform_read_of_hidden hf (hidden r hr)⟩
  · rw [State.statusWord_busy, State.busy_eq_true]
    exact ⟨f, hf⟩
  · have hread : s.perform (.read offset width) = (s, (s.retire.perform (.read offset width)).2) := by
      rcases ho with ho | hbuf
      · have hregs : offset ∈ [Reg.id, .cfg, .cmd, .opa, .opb].map regOffset := ho
        obtain ⟨r, hr, rfl⟩ := List.mem_map.mp hregs
        have others : ∀ r ∈ [Reg.id, .cfg, .cmd, .opa, .opb],
            hiddenWhileBusy r = false ∧ r ≠ .status := by decide
        obtain ⟨hexact, hst⟩ := others r hr
        exact s.perform_read_reg_eq_retire hexact hst width
      · exact s.perform_read_buffer_eq_retire hbuf width
    rw [hread]
    exact ⟨rfl, rfl⟩

/-- Settles O46: of the two accesses only the write looks at BUSY. -/
theorem busyBlockKeepsItsBuffer : Obligations.BusyBlockKeepsItsBuffer := by
  intro s f offset width v hf hbuf hwidth halign hin
  have hsize : wellSized offset width = true := (wellSized_buffer hbuf).mpr ⟨hwidth, halign⟩
  have hle : width ≤ 8 := (by decide : ∀ w ∈ [1, 2, 4, 8], w ≤ 8) width hwidth
  refine ⟨?_, _, State.perform_read_inside hbuf hsize hin, fun k hk =>
    s.extractLsb'_readLanes_inside _ hk hle⟩
  rw [State.perform_write_inside hbuf hsize hin, if_pos (s.busy_eq_true.mpr ⟨f, hf⟩)]

/-- Settles O52: each step takes one coming event, and when there is none the Complete step leaves the block
idle. -/
theorem blockBecomesIdle : Obligations.BlockBecomesIdle := by
  intro s
  obtain ⟨u, hu⟩ := everyStepAnswersNext s
  induction hin : s.inbox generalizing s u with
  | nil => exact ⟨u, steps_succ hu, idle_of_step_of_nil hin hu⟩
  | cons e rest ih =>
    have hrest : u.inbox = rest := by rw [step_inbox hu, hin, List.tail_cons]
    obtain ⟨v, hv⟩ := everyStepAnswersNext u
    obtain ⟨t, ht, hidle⟩ := ih u v hv hrest
    exact ⟨t, (steps_succ hu).trans ht, hidle⟩

end Sys2Proof.Machine
end
